-- ==== Sys2Proof/Word.lean ====
section
/-! DEFINITION. The two word types of the CORE (spec/00_scope.md R7, spec/10_state.md R25). -/

namespace Sys2Proof

/-- `XLEN = 8`: every register, memory cell, opcode byte and operand byte (R7). -/
abbrev Byte := BitVec 8

/-- An address as the CORE computes it: 9 bits, since the pc holds 0 to 256 and an access may name
an address above every cell (R25, R42). -/
abbrev Addr := BitVec 9

end Sys2Proof
end

