-- ==== Sys2Proof/Config.lean ====
section
/-! DEFINITION. The implementation parameters of spec/00_scope.md section 3, at this hardware's
values. `OPCODE_MAP` (R13) is `Sys2Proof.opcodeTable` of Decode.lean. There is no free value: the
spec states every result (spec/93_implementation_defined.md section 1). -/

namespace Sys2Proof.Config

/-- `NUM_REGS` (R8). -/
abbrev numRegs : Nat := 8

/-- `MEM_SIZE` (R9): cells at addresses 0 to 254. UNVERIFIED, safe: the literal is unaudited (log 6). -/
abbrev memSize : Nat := 255

/-- `SP_INDEX` (R10). -/
abbrev spIndex : Fin numRegs := 7

/-- `SP_INIT` (R11). -/
abbrev spInit : Byte := 0xF4#8

/-- `PC_RESET` (R12). -/
abbrev pcReset : Addr := 0#9

/-- `GPR_RESET` (R14). DESIGN CHOICE, unsafe: the source gives none, the spec decides 0 (D8, log 2). -/
abbrev gprReset : Byte := 0x00#8

/-- `MEM_FILL` (R15): what a cell that nothing has written holds. DESIGN CHOICE, unsafe: the source
gives none, the spec decides 0 (D9, log 3). -/
abbrev memFill : Byte := 0x00#8

end Sys2Proof.Config
end

