-- ==== Sys2Proof/Machine/State.lean ====
section
/-! DEFINITION. The CORE's whole state (spec/10_state.md), its value after reset (R39), and the two
types of reasons a step could stop. -/

namespace Sys2Proof.Machine

/-- `FL`, the condition register {Equal, Greater, Less} (R29). -/
structure Flags where
  e : Bool
  g : Bool
  l : Bool
deriving DecidableEq, Repr

/-- The run-state of the execution loop (R33, spec/40_execution_cycle.md R80). -/
inductive RunState where
  | running | halted | faulted
deriving DecidableEq, Repr

/-- `FAULT_CAUSE`, why the CORE entered `Faulted` (R34). -/
inductive FaultCause where
  /-- No fault since reset. -/
  | none
  /-- Memory address out of bounds. -/
  | memOob
  /-- Register index out of bounds. -/
  | regOob
  /-- Modulo by zero. -/
  | divZero
deriving DecidableEq, Repr

/-- What a `raise` carries (spec/00_scope.md R18, spec/60_exceptions.md R150): the kind of fault and
its information. A raise is no stop of the model: the step TAKES it (R155, `State.takeFault`). -/
inductive Raise where
  /-- `OutOfBounds(MEM, addr)` (R151). -/
  | memOob (addr : Addr)
  /-- `OutOfBounds(REG, i)` (R152). -/
  | regOob (index : Byte)
  /-- `DivideByZero(rb)` (R153). -/
  | divZero (index : Byte)
deriving DecidableEq, Repr

/-- One event of the report port: the pc of an unrecognised opcode and its value (R154). -/
structure Report where
  pc : Addr
  opcode : Byte
deriving DecidableEq, Repr

/-- Memory as a list of (address, byte) pairs in one canonical form (`Memory.wf`); an address that is
not listed reads as `Memory.fill`. -/
abbrev Memory := List Host.Cell

/-- The CORE's state (the tuple at the head of spec/10_state.md), the record of the two event ports and
the level of the reset input. -/
structure State where
  /-- `x[0]` to `x[7]`; `x[7]` is the stack pointer (R20, R21). -/
  regs : Vector Byte Config.numRegs
  /-- The program counter (R25). -/
  pc : Addr
  /-- The condition register (R29). -/
  fl : Flags
  /-- The run-state (R33). -/
  run : RunState
  /-- `FAULT_CAUSE` (R34). -/
  faultCause : FaultCause
  /-- `FAULT_INFO` (R35). -/
  faultInfo : Addr
  /-- The instruction register (R36). -/
  ir : Byte
  /-- The trace address register (R37). -/
  mar : Addr
  /-- The trace data register (R37). -/
  mdr : Byte
  /-- `MEM` (spec/20_memory.md R40). -/
  mem : Memory
  /-- Values delivered on the output port, oldest first (spec/41_data_move_io.md R102). DESIGN CHOICE,
  safe: the model records the port's events in State (log 7). -/
  out : List Byte
  /-- Events delivered on the report port, oldest first (R154). DESIGN CHOICE, safe (log 7). -/
  reports : List Report
  /-- The level of the host's reset input (spec/70_reset_and_hazards.md R170): while it is held the CORE
  makes no step. DESIGN CHOICE, safe: the model holds this input in State (log 17). -/
  resetHeld : Bool
deriving DecidableEq, Repr

/-- Reasons a step stops with a fault: none. The CORE's own faults are TAKEN, as a next state whose
run-state is `Faulted` (spec/60_exceptions.md R155); from `Running` a step always exists
(spec/40_execution_cycle.md R81) and a terminal CORE's step does nothing (spec/00_scope.md R6). No
instruction raises a stop, so the type has no constructor (DEDUCED, safe; log 8). -/
inductive Fault where
deriving DecidableEq, Repr

/-- Reasons the model gives an instruction no meaning. -/
inductive Refusal where
  /-- An arm of `exec` without a meaning. Safe. No arm raises it: every instruction has its meaning. -/
  | notModelled (mnemonic : String)
deriving DecidableEq, Repr

/-- The machine right after reset, with reset released and no image loaded (R39). `x[7]`, `pc` and `run` are the source's.
The other values are DESIGN CHOICE, unsafe: the spec decides them where the source gives none (D6, D8,
D9, D14, D23, D32; log 2 to 5). The two port records start empty (DESIGN CHOICE, safe; log 7),
and the reset input is released (DESIGN CHOICE, safe; log 17). -/
def State.reset : State where
  regs := (Vector.replicate Config.numRegs Config.gprReset).set Config.spIndex Config.spInit
  pc := Config.pcReset
  fl := { e := false, g := false, l := false }
  run := .running
  faultCause := .none
  faultInfo := 0#9
  ir := 0x00#8
  mar := 0#9
  mdr := 0x00#8
  mem := []
  out := []
  reports := []
  resetHeld := false

end Sys2Proof.Machine
end

