-- ==== Sys2Proof/Machine/Ops.lean ====
section
/-! DEFINITION. The named operations over memory, registers, the pc, the ports and the run-state, and
taking a fault (spec/20_memory.md, spec/43_stack.md, spec/60_exceptions.md, spec/70_reset_and_hazards.md).

An operation that may `raise` answers `Except Raise`; the state it answers holds the step's staged
writes (spec/00_scope.md R19), which a raise drops because the error carries no state. -/

namespace Sys2Proof.Machine

/-! ### Memory cells -/

/-- What a cell holds that nothing has written: `MEM_FILL` (R15). DESIGN CHOICE, unsafe (log 3). -/
def Memory.fill : Byte := Config.memFill

/-- The canonical form from address `lo` up: addresses rise strictly, every one is a cell's, and no
entry equals the fill byte. -/
def Memory.wfFrom (lo : Nat) : Memory → Bool
  | [] => true
  | (a, v) :: m => decide (lo ≤ a) && decide (a < Config.memSize) && (v != Memory.fill) && Memory.wfFrom (a + 1) m

/-- The canonical form of a memory. -/
def Memory.wf (m : Memory) : Bool := Memory.wfFrom 0 m

/-- The byte at address `a`. -/
def Memory.read : Memory → Nat → Byte
  | [], _ => Memory.fill
  | (k, v) :: m, a => if k = a then v else Memory.read m a

/-- The memory with byte `v` at address `a`, in canonical form again. -/
def Memory.write : Memory → Nat → Byte → Memory
  | [], a, v => if v = Memory.fill then [] else [(a, v)]
  | (k, w) :: m, a, v =>
    if a < k then (if v = Memory.fill then (k, w) :: m else (a, v) :: (k, w) :: m)
    else if a = k then (if v = Memory.fill then m else (a, v) :: m)
    else (k, w) :: Memory.write m a v

/-- The memory with the bytes stored from address `a` up; a byte whose address is no cell is dropped.
The host's load (R58) never has such a byte. -/
def Memory.load (m : Memory) (a : Nat) : List Byte → Memory
  | [] => m
  | v :: vs => Memory.load (if a < Config.memSize then m.write a v else m) (a + 1) vs

/-- The byte a state's memory holds at an address. -/
def State.byteAt (s : State) (a : Nat) : Byte := s.mem.read a

/-- The bytes of memory from address `a` to the last cell, in address order (R46). -/
def State.bytesFrom (s : State) (a : Nat) : List Byte :=
  (List.range' a (Config.memSize - a)).map s.byteAt

/-! ### Registers, pc, flags, run-state, trace pair, ports -/

/-- `x[i]` (R18). -/
def State.reg (s : State) (i : Fin Config.numRegs) : Byte := s.regs[i]

/-- `x[i] <- v` (R18). No register is hardwired (R20). -/
def State.setReg (s : State) (i : Fin Config.numRegs) (v : Byte) : State :=
  { s with regs := s.regs.set i v }

/-- `SP`, another name for `x[7]` (R21). -/
def State.sp (s : State) : Byte := s.reg Config.spIndex

/-- `SP <- v`. -/
def State.setSp (s : State) (v : Byte) : State := s.setReg Config.spIndex v

/-- `pc <- p` (R18). -/
def State.setPc (s : State) (p : Addr) : State := { s with pc := p }

/-- The flag bits take new values; only CMP does this (R30). -/
def State.setFl (s : State) (f : Flags) : State := { s with fl := f }

/-- `run <- r` (R33). -/
def State.setRun (s : State) (r : RunState) : State := { s with run := r }

/-- `IR <- b` (R36). -/
def State.setIr (s : State) (b : Byte) : State := { s with ir := b }

/-- `MAR <- a; MDR <- b` (R59). -/
def State.setTrace (s : State) (a : Addr) (b : Byte) : State := { s with mar := a, mdr := b }

/-- The memory array takes a new content. -/
def State.setMem (s : State) (m : Memory) : State := { s with mem := m }

/-- `Emit(v)` (R18, R102). -/
def State.emit (s : State) (v : Byte) : State := { s with out := s.out ++ [v] }

/-- `Report(UnknownOpcode, pc, op)` (R18, R154). -/
def State.report (s : State) (op : Byte) : State :=
  { s with reports := s.reports ++ [{ pc := s.pc, opcode := op }] }

/-- `pc <- pc + 1 + n` (R88). -/
def State.autoAdvance (s : State) (n : Nat) : State := s.setPc (s.pc + 1 + BitVec.ofNat 9 n)

/-! ### The memory interface -/

/-- The bound check, the only check on an address (R42, R51). -/
def inMemory (addr : Addr) : Bool := decide (addr.toNat < Config.memSize)

/-- `MemRead(addr, 1)` (R42, R59): the byte, and the state with the trace pair updated. -/
def memRead (addr : Addr) (s : State) : Except Raise (Byte × State) :=
  if inMemory addr then
    .ok (s.byteAt addr.toNat, s.setTrace addr (s.byteAt addr.toNat))
  else .error (.memOob addr)

/-- `MemWrite(addr, 1, v)` (R43, R59). -/
def memWrite (addr : Addr) (v : Byte) (s : State) : Except Raise State :=
  if inMemory addr then
    .ok ((s.setTrace addr v).setMem (s.mem.write addr.toNat v))
  else .error (.memOob addr)

/-! ### Stack-pointer logic -/

/-- `SP <- (SP - 1) mod 256` (R130). -/
def State.decSp (s : State) : State := s.setSp (s.sp - 1)

/-- `SP <- (SP + 1) mod 256` (R130). -/
def State.incSp (s : State) : State := s.setSp (s.sp + 1)

/-- The stack pointer as an address, zero-extended (R130). -/
def State.spAddr (s : State) : Addr := s.sp.setWidth 9

/-! ### Taking a fault (R155), and the host's moves (R58, R170 to R172) -/

/-- The `FAULT_CAUSE` a raise records (R150). -/
def Raise.cause : Raise → FaultCause
  | .memOob _ => .memOob
  | .regOob _ => .regOob
  | .divZero _ => .divZero

/-- The `FAULT_INFO` a raise records (R35, R150): the address, or the index byte zero-extended. -/
def Raise.info : Raise → Addr
  | .memOob addr => addr
  | .regOob i => i.setWidth 9
  | .divZero i => i.setWidth 9

/-- Fault entry (R155): from the state before the step, these three fields and nothing else. -/
def State.takeFault (s : State) (r : Raise) : State :=
  { s with run := .faulted, faultCause := r.cause, faultInfo := r.info }

/-- The host asserts reset (R170, R171): every field but memory takes its R39 value, memory is kept, and
reset is held. It is the only way out of `Faulted` and `Halted` (R157); no instruction returns from a
fault. A step in progress has no effect, so `s` is the state that step began in. -/
def State.hostReset (s : State) : State := { State.reset with mem := s.mem, resetHeld := true }

/-- The host releases reset (R172): the CORE may step again, from the state reset left. -/
def State.hostRelease (s : State) : State := { s with resetHeld := false }

/-- Image load by the host (R58, R172): byte `i` to `MEM[i]`, only while reset is held or the
run-state is terminal, and only if the image fits. `none`: the host may not make this move. -/
def State.hostLoad (s : State) (image : List Byte) : Option State :=
  if (s.resetHeld || s.run != .running) && decide (image.length ≤ Config.memSize) then
    some (s.setMem (s.mem.load 0 image))
  else none

/-- The end of an instruction's own rule: its staged state is the next state, or its raise is taken
over the state it started from (R19, R155). -/
def finish (s : State) : Except Raise State → Host.Outcome State Fault Refusal
  | .ok t => .next t
  | .error r => .next (s.takeFault r)

/-- The end of a whole step that began in the running state `s` (R19, R91, R155): where the
instruction faulted, everything staged since `s`, the fetch's writes of IR, MAR and MDR among them, is
dropped, and only the run-state and the fault record are written. -/
def commit (s : State) : Host.Outcome State Fault Refusal → Host.Outcome State Fault Refusal
  | .next t =>
    if t.run = .faulted then
      .next { s with run := t.run, faultCause := t.faultCause, faultInfo := t.faultInfo }
    else .next t
  | .fault f => .fault f
  | .refused r => .refused r

/-! ### Status outputs (R166) -/

/-- The 2-bit code of the run-state (R33). -/
def RunState.code : RunState → BitVec 2
  | .running => 0b00#2
  | .halted => 0b01#2
  | .faulted => 0b10#2

/-- The 2-bit code of the fault cause (R34). -/
def FaultCause.code : FaultCause → BitVec 2
  | .none => 0#2
  | .memOob => 1#2
  | .regOob => 2#2
  | .divZero => 3#2

/-- What the host reads at any time (R166): `run`, `FAULT_CAUSE`, `FAULT_INFO`. -/
def State.statusOutputs (s : State) : BitVec 2 × BitVec 2 × Addr :=
  (s.run.code, s.faultCause.code, s.faultInfo)

end Sys2Proof.Machine
end

