-- ==== Sys2Proof/Machine/Flags.lean ====
section
/-! DEFINITION. The condition register: CMP's computation of it, the one read conditional jumps make
of it, and its packed view (spec/42_alu.md R114, spec/10_state.md R29 to R32). -/

namespace Sys2Proof.Machine

/-- The flags CMP sets, from the unsigned comparison (R114). -/
def compareFlags (va vb : Byte) : Flags where
  e := decide (va.toNat = vb.toNat)
  g := decide (va.toNat > vb.toNat)
  l := decide (va.toNat < vb.toNat)

/-- `FL.E`, the only flag an instruction reads (R31). -/
def State.equalFlag (s : State) : Bool := s.fl.e

/-- The packed 3-bit view: L is bit 2, G bit 1, E bit 0 (R29). PRESUMED, safe: only a host that shows
FL as a number sees it (D7, log 14). -/
def Flags.pack (f : Flags) : BitVec 3 :=
  BitVec.ofBool f.l ++ (BitVec.ofBool f.g ++ BitVec.ofBool f.e)

/-- How many of the three bits are set (R32). -/
def Flags.count (f : Flags) : Nat := f.e.toNat + f.g.toNat + f.l.toNat

end Sys2Proof.Machine
end

