-- ==== Sys2Proof/Machine/Operands.lean ====
section
/-! DEFINITION. The operand forms: a register-index byte, checked where it is accessed
(spec/40_execution_cycle.md R82, spec/10_state.md R23), and the immediate byte of LDI, which is used
as it is (spec/30_encoding.md R64, R65) and needs no operation. -/

namespace Sys2Proof.Machine

/-- `CheckReg(i)` (R82): the register the whole index byte names; the index is not reduced (R23). -/
def checkReg (i : Byte) : Except Raise (Fin Config.numRegs) :=
  if h : i.toNat < Config.numRegs then .ok ⟨i.toNat, h⟩ else .error (.regOob i)

/-- `RegRead(i)` (R82). -/
def regRead (i : Byte) (s : State) : Except Raise Byte := do
  let k ← checkReg i
  pure (s.reg k)

/-- `RegWrite(i, v)` (R82): the exact result `v` is reduced modulo 256 when it is stored (R24). -/
def regWrite (i : Byte) (v : Nat) (s : State) : Except Raise State := do
  let k ← checkReg i
  pure (s.setReg k (BitVec.ofNat 8 v))

end Sys2Proof.Machine
end

