-- ==== Sys2Proof/Machine/Alu.lean ====
section
/-! DEFINITION. The ten ALU instructions (spec/42_alu.md). Results are exact natural numbers, reduced
modulo 256 by `regWrite` (R110, R121); every operand value is unsigned. -/

namespace Sys2Proof.Machine

/-! ### The exact operations -/

/-- `va + vb` (R111). -/
def aluAdd (va vb : Byte) : Nat := va.toNat + vb.toNat

/-- `va * vb` (R112). -/
def aluMul (va vb : Byte) : Nat := va.toNat * vb.toNat

/-- `va mod vb`, the unsigned remainder, used for `vb ≠ 0` only (R113, R121). -/
def aluMod (va vb : Byte) : Nat := va.toNat % vb.toNat

/-- `va & vb` (R115). -/
def aluAnd (va vb : Byte) : Nat := va.toNat &&& vb.toNat

/-- `va | vb` (R116). -/
def aluOr (va vb : Byte) : Nat := va.toNat ||| vb.toNat

/-- `va ^ vb` (R117). -/
def aluXor (va vb : Byte) : Nat := va.toNat ^^^ vb.toNat

/-- `255 - va`, the complement (R118). -/
def aluNot (va : Byte) : Nat := 255 - va.toNat

/-- `va << vb`, by the whole value of `vb` (R119). -/
def aluShl (va vb : Byte) : Nat := va.toNat <<< vb.toNat

/-- `va >> vb`, logical, by the whole value of `vb` (R120). -/
def aluShr (va vb : Byte) : Nat := va.toNat >>> vb.toNat

/-! ### The common form (R110) -/

/-- `ExecuteALU(f, ra, rb)`, then the advance by 3. -/
def executeAlu (f : Byte → Byte → Nat) (ra rb : Byte) (s : State) : Except Raise State := do
  let va ← regRead ra s
  let vb ← regRead rb s
  let t ← regWrite ra (f va vb) s
  pure (t.autoAdvance 2)

/-! ### The instructions -/

/-- ADD (R111). -/
def execAdd (ra rb : Byte) (s : State) : Host.Outcome State Fault Refusal :=
  finish s (executeAlu aluAdd ra rb s)

/-- MUL (R112). -/
def execMul (ra rb : Byte) (s : State) : Host.Outcome State Fault Refusal :=
  finish s (executeAlu aluMul ra rb s)

/-- MOD (R113): both register checks come before the divisor check (R92). -/
def execMod (ra rb : Byte) (s : State) : Host.Outcome State Fault Refusal :=
  finish s do
    let _ ← regRead ra s
    let vb ← regRead rb s
    if vb = 0 then .error (.divZero rb) else executeAlu aluMod ra rb s

/-- CMP (R114): all three flags, no register, then the advance by 3. -/
def execCmp (ra rb : Byte) (s : State) : Host.Outcome State Fault Refusal :=
  finish s do
    let va ← regRead ra s
    let vb ← regRead rb s
    pure ((s.setFl (compareFlags va vb)).autoAdvance 2)

/-- AND (R115). -/
def execAnd (ra rb : Byte) (s : State) : Host.Outcome State Fault Refusal :=
  finish s (executeAlu aluAnd ra rb s)

/-- OR (R116). -/
def execOr (ra rb : Byte) (s : State) : Host.Outcome State Fault Refusal :=
  finish s (executeAlu aluOr ra rb s)

/-- XOR (R117). -/
def execXor (ra rb : Byte) (s : State) : Host.Outcome State Fault Refusal :=
  finish s (executeAlu aluXor ra rb s)

/-- NOT (R118): one operand, so the advance is by 2. -/
def execNot (ra : Byte) (s : State) : Host.Outcome State Fault Refusal :=
  finish s do
    let va ← regRead ra s
    let t ← regWrite ra (aluNot va) s
    pure (t.autoAdvance 1)

/-- SHL (R119). -/
def execShl (ra rb : Byte) (s : State) : Host.Outcome State Fault Refusal :=
  finish s (executeAlu aluShl ra rb s)

/-- SHR (R120). -/
def execShr (ra rb : Byte) (s : State) : Host.Outcome State Fault Refusal :=
  finish s (executeAlu aluShr ra rb s)

end Sys2Proof.Machine
end

