-- ==== Sys2Proof/Machine/ControlFlow.lean ====
section
/-! DEFINITION. The control-flow instructions (spec/44_control_flow.md). Each sets the pc itself and
nothing advances it afterwards (spec/40_execution_cycle.md R89). A target is an 8-bit value,
zero-extended (R145). -/

namespace Sys2Proof.Machine

/-- `pc <- RegRead(ra)`. -/
def jumpTo (ra : Byte) (s : State) : Except Raise State := do
  let v ← regRead ra s
  pure (s.setPc (v.setWidth 9))

/-- The not-taken side of a conditional jump: `pc <- pc + 2`, no register accessed (R141, R142). -/
def jumpPast (s : State) : Except Raise State := .ok (s.setPc (s.pc + 2))

/-- JMP (R140). -/
def execJmp (ra : Byte) (s : State) : Host.Outcome State Fault Refusal :=
  finish s (jumpTo ra s)

/-- JEQ (R141). -/
def execJeq (ra : Byte) (s : State) : Host.Outcome State Fault Refusal :=
  finish s (if s.equalFlag then jumpTo ra s else jumpPast s)

/-- JNE (R142). -/
def execJne (ra : Byte) (s : State) : Host.Outcome State Fault Refusal :=
  finish s (if s.equalFlag then jumpPast s else jumpTo ra s)

/-- The byte CALL pushes: `(pc + 2) mod 256` (R143). -/
def returnByte (s : State) : Byte := (s.pc + 2).setWidth 8

/-- CALL (R143): the target register is read after the push, so CALL R7 jumps to the decremented SP. -/
def execCall (ra : Byte) (s : State) : Host.Outcome State Fault Refusal :=
  finish s do
    let k ← checkReg ra
    let t := s.decSp
    let u ← memWrite t.spAddr (returnByte s) t
    pure (u.setPc ((u.reg k).setWidth 9))

/-- RET (R144). -/
def execRet (s : State) : Host.Outcome State Fault Refusal :=
  finish s do
    let (v, t) ← memRead s.spAddr s
    pure (t.incSp.setPc (v.setWidth 9))

end Sys2Proof.Machine
end

