-- ==== Sys2Proof/Machine/DataMove.lean ====
section
/-! DEFINITION. Halt, immediate load and print (spec/41_data_move_io.md). A meaning runs on the state
the fetch left (IR and the trace pair written, pc at the opcode) and makes its own pc move
(spec/40_execution_cycle.md R88 to R90). -/

namespace Sys2Proof.Machine

/-- HLT (R100): `run <- Halted`; the pc stays at the HLT (R90). -/
def execHlt (s : State) : Host.Outcome State Fault Refusal :=
  finish s (.ok (s.setRun .halted))

/-- LDI (R101): `RegWrite(ra, imm8)`, then the advance by 3. -/
def execLdi (ra imm : Byte) (s : State) : Host.Outcome State Fault Refusal :=
  finish s do
    let t ← regWrite ra imm.toNat s
    pure (t.autoAdvance 2)

/-- PRN (R102): one output event with the register's value, then the advance by 2. -/
def execPrn (ra : Byte) (s : State) : Host.Outcome State Fault Refusal :=
  finish s do
    let v ← regRead ra s
    pure ((s.emit v).autoAdvance 1)

end Sys2Proof.Machine
end

