-- ==== Sys2Proof/Machine/Stack.lean ====
section
/-! DEFINITION. PUSH and POP (spec/43_stack.md). The stack pointer wraps modulo 256, and only the
memory access that follows is checked (R133). -/

namespace Sys2Proof.Machine

/-- PUSH (R131): the register is read after the decrement, so PUSH R7 stores the decremented SP. -/
def execPush (ra : Byte) (s : State) : Host.Outcome State Fault Refusal :=
  finish s do
    let k ← checkReg ra
    let t := s.decSp
    let u ← memWrite t.spAddr (t.reg k) t
    pure (u.autoAdvance 1)

/-- POP (R132): the increment comes after the register write, so POP R7 leaves the loaded byte plus 1. -/
def execPop (ra : Byte) (s : State) : Host.Outcome State Fault Refusal :=
  finish s do
    let k ← checkReg ra
    let (v, t) ← memRead s.spAddr s
    pure ((t.setReg k v).incSp.autoAdvance 1)

end Sys2Proof.Machine
end

