-- ==== Sys2Proof/Syntax.lean ====
section
/-! DEFINITION. The twenty instructions of spec/30_encoding.md R66, one constructor for each row of
spec/opcode_table.json. Operands are the operand BYTES, used unchanged (R64, R65): a register operand
keeps its whole byte, because an index of 8 or more is encodable and faults when it is accessed (R23). -/

namespace Sys2Proof

/-- One instruction with its operand bytes (R62, R66). -/
inductive Instr where
  /-- Halt (R100). -/
  | hlt
  /-- Immediate-load: register `ra`, immediate `imm` (R101). -/
  | ldi (ra imm : Byte)
  /-- Print-register (R102). -/
  | prn (ra : Byte)
  /-- Add (R111). -/
  | add (ra rb : Byte)
  /-- Multiply (R112). -/
  | mul (ra rb : Byte)
  /-- Modulo (R113). -/
  | mod (ra rb : Byte)
  /-- Compare (R114). -/
  | cmp (ra rb : Byte)
  /-- Bitwise and (R115). -/
  | and (ra rb : Byte)
  /-- Bitwise or (R116). -/
  | or (ra rb : Byte)
  /-- Bitwise exclusive or (R117). -/
  | xor (ra rb : Byte)
  /-- Bitwise complement (R118). -/
  | not (ra : Byte)
  /-- Shift left (R119). -/
  | shl (ra rb : Byte)
  /-- Shift right (R120). -/
  | shr (ra rb : Byte)
  /-- Stack-push (R131). -/
  | push (ra : Byte)
  /-- Stack-pop (R132). -/
  | pop (ra : Byte)
  /-- Jump (R140). -/
  | jmp (ra : Byte)
  /-- Jump-if-equal (R141). -/
  | jeq (ra : Byte)
  /-- Jump-if-not-equal (R142). -/
  | jne (ra : Byte)
  /-- Call (R143). -/
  | call (ra : Byte)
  /-- Return (R144). -/
  | ret
deriving DecidableEq, Repr

end Sys2Proof
end

