-- ==== Sys2Proof/Decode.lean ====
section
/-! DEFINITION. The opcode map, the decoder and the encoder (spec/30_encoding.md, spec/00_scope.md
R13). One table gives both directions. Seventeen of its twenty opcode bytes are PRESUMED (general
knowledge the spec carries, D2); unsafe (log 1). -/

namespace Sys2Proof

/-- The seven instruction classes of the decoder (spec/40_execution_cycle.md R84). -/
inductive InstrClass where
  | halt | immediateLoad | printRegister | stackPush | stackPop | controlFlow | aluOp
deriving DecidableEq, Repr

/-- The twenty operations an opcode byte can select, before operands (R66). -/
inductive Op where
  | hlt | ldi | prn
  | add | mul | mod | cmp | and | or | xor | not | shl | shr
  | push | pop
  | jmp | jeq | jne | call | ret
deriving DecidableEq, Repr

/-- One row of the opcode map (R66): the opcode byte, its operation and its class. -/
structure OpcodeRow where
  byte : Byte
  op : Op
  cls : InstrClass
deriving DecidableEq, Repr

/-- Rows of R66 whose bytes are in the source. -/
def opcodeRowsSource : List OpcodeRow :=
  [ ⟨0x01#8, .hlt, .halt⟩,
    ⟨0x82#8, .ldi, .immediateLoad⟩,
    ⟨0x47#8, .prn, .printRegister⟩ ]

/-- ALU rows of R66. PRESUMED bytes, unsafe (log 1). -/
def opcodeRowsAlu : List OpcodeRow :=
  [ ⟨0xA0#8, .add, .aluOp⟩,
    ⟨0xA2#8, .mul, .aluOp⟩,
    ⟨0xA4#8, .mod, .aluOp⟩,
    ⟨0xA7#8, .cmp, .aluOp⟩,
    ⟨0xA8#8, .and, .aluOp⟩,
    ⟨0xAA#8, .or, .aluOp⟩,
    ⟨0xAB#8, .xor, .aluOp⟩,
    ⟨0x69#8, .not, .aluOp⟩,
    ⟨0xAC#8, .shl, .aluOp⟩,
    ⟨0xAD#8, .shr, .aluOp⟩ ]

/-- Stack and control-flow rows of R66. PRESUMED bytes, unsafe (log 1). -/
def opcodeRowsFlow : List OpcodeRow :=
  [ ⟨0x45#8, .push, .stackPush⟩,
    ⟨0x46#8, .pop, .stackPop⟩,
    ⟨0x54#8, .jmp, .controlFlow⟩,
    ⟨0x55#8, .jeq, .controlFlow⟩,
    ⟨0x56#8, .jne, .controlFlow⟩,
    ⟨0x50#8, .call, .controlFlow⟩,
    ⟨0x11#8, .ret, .controlFlow⟩ ]

/-- `OPCODE_MAP` (R13, R66) as a table. -/
def opcodeTable : List OpcodeRow := opcodeRowsSource ++ opcodeRowsAlu ++ opcodeRowsFlow

/-- `OPCODE_MAP` as a total map: the whole byte is compared (R63); `none` is `Unknown` (R67). -/
def opcodeMap (b : Byte) : Option Op :=
  (opcodeTable.find? fun r => r.byte == b).map OpcodeRow.op

/-- The opcode byte of an operation. Every operation has a row, so the last alternative is never
taken (`Laws.opcodeMap_byte`). -/
def Op.byte (o : Op) : Byte :=
  match opcodeTable.find? fun r => r.op == o with
  | some r => r.byte
  | none => 0#8

/-- The class of an operation (R66, R84). Every operation has a row, as above. -/
def Op.cls (o : Op) : InstrClass :=
  match opcodeTable.find? fun r => r.op == o with
  | some r => r.cls
  | none => .halt

/-- `n = op[7:6]`, the number of operand bytes an opcode byte announces (R61). -/
def operandCount (b : Byte) : Nat := (b >>> 6).toNat

/-- The instruction an operation and its operand bytes make (R62, R64): `a` is the byte after the
opcode and `b` the one after it; an operation uses as many of them as its format has. -/
def Op.instr (o : Op) (a b : Byte) : Instr :=
  match o with
  | .hlt => .hlt
  | .ldi => .ldi a b
  | .prn => .prn a
  | .add => .add a b
  | .mul => .mul a b
  | .mod => .mod a b
  | .cmp => .cmp a b
  | .and => .and a b
  | .or => .or a b
  | .xor => .xor a b
  | .not => .not a
  | .shl => .shl a b
  | .shr => .shr a b
  | .push => .push a
  | .pop => .pop a
  | .jmp => .jmp a
  | .jeq => .jeq a
  | .jne => .jne a
  | .call => .call a
  | .ret => .ret

/-- Why the decoder reads no instruction. -/
inductive DecodeReject where
  /-- There is no byte to decode. -/
  | noOpcode
  /-- The opcode byte is one of the 236 unrecognised values (R67). The step reports and skips it (R85). -/
  | unknownOpcode (b : Byte)
  /-- The bytes end before the operands that opcode `b` announces (R60, R61). -/
  | missingOperand (b : Byte)
deriving DecidableEq, Repr

/-- Reads one instruction from the front of a list of bytes and answers it with the bytes after it
(R60, R71). -/
def decode : List Byte → Except DecodeReject (Instr × List Byte)
  | [] => .error .noOpcode
  | b :: rest =>
    match opcodeMap b with
    | none => .error (.unknownOpcode b)
    | some o =>
      match operandCount b, rest with
      | 0, rest => .ok (o.instr 0 0, rest)
      | 1, x :: rest => .ok (o.instr x 0, rest)
      | 2, x :: y :: rest => .ok (o.instr x y, rest)
      | _, _ => .error (.missingOperand b)

/-- The operation of an instruction. -/
def Instr.op : Instr → Op
  | .hlt => .hlt
  | .ldi _ _ => .ldi
  | .prn _ => .prn
  | .add _ _ => .add
  | .mul _ _ => .mul
  | .mod _ _ => .mod
  | .cmp _ _ => .cmp
  | .and _ _ => .and
  | .or _ _ => .or
  | .xor _ _ => .xor
  | .not _ => .not
  | .shl _ _ => .shl
  | .shr _ _ => .shr
  | .push _ => .push
  | .pop _ => .pop
  | .jmp _ => .jmp
  | .jeq _ => .jeq
  | .jne _ => .jne
  | .call _ => .call
  | .ret => .ret

/-- The operand bytes of an instruction, in the order they follow the opcode (R62, R74). -/
def Instr.operands : Instr → List Byte
  | .hlt => []
  | .ldi ra imm => [ra, imm]
  | .prn ra => [ra]
  | .add ra rb => [ra, rb]
  | .mul ra rb => [ra, rb]
  | .mod ra rb => [ra, rb]
  | .cmp ra rb => [ra, rb]
  | .and ra rb => [ra, rb]
  | .or ra rb => [ra, rb]
  | .xor ra rb => [ra, rb]
  | .not ra => [ra]
  | .shl ra rb => [ra, rb]
  | .shr ra rb => [ra, rb]
  | .push ra => [ra]
  | .pop ra => [ra]
  | .jmp ra => [ra]
  | .jeq ra => [ra]
  | .jne ra => [ra]
  | .call ra => [ra]
  | .ret => []

/-- The bytes of an instruction: the opcode byte, then its operand bytes (R60, R74). -/
def encode (i : Instr) : List Byte := i.op.byte :: i.operands

/-- The class the decoder gives an instruction (R84). -/
def Instr.cls (i : Instr) : InstrClass := i.op.cls

/-- The three bytes of a table word, the first byte in bits 7:0; bits at or above `nbits` are 0. -/
def wordBytes (nbits w : Nat) : List Byte :=
  let v := w % 2 ^ nbits
  [BitVec.ofNat 8 v, BitVec.ofNat 8 (v / 2 ^ 8), BitVec.ofNat 8 (v / 2 ^ 16)]

/-- The instruction the decoder reads from a word numbered as spec/opcode_table.json numbers it. -/
def decodeTableWord (nbits w : Nat) : Option Instr :=
  match decode (wordBytes nbits w) with
  | .ok (i, _) => some i
  | .error _ => none

end Sys2Proof
end

