-- ==== Sys2Proof/Machine/Fetch.lean ====
section
/-! DEFINITION. Fetch and decode (spec/40_execution_cycle.md R83 to R86), and the step of an
unrecognised opcode. -/

namespace Sys2Proof.Machine

/-- What a fetch reads: an instruction with its operands, or an unrecognised opcode byte (R84). -/
inductive Fetched where
  | instr (i : Instr)
  | unknown (op : Byte)
deriving DecidableEq, Repr

/-- `op <- MemRead(pc, 1); IR <- op` (R83). -/
def fetchOpcode (s : State) : Except Raise (Byte × State) := do
  let (op, t) ← memRead s.pc s
  pure (op, t.setIr op)

/-- Operand A: `MemRead(pc + 1, 1)` (R86). -/
def fetchA (s : State) : Except Raise (Byte × State) := memRead (s.pc + 1) s

/-- Operand B: `MemRead(pc + 2, 1)` (R86). -/
def fetchB (s : State) : Except Raise (Byte × State) := memRead (s.pc + 2) s

/-- Fetch and decode one instruction (R83 to R86): exactly the `n` operand bytes that a recognised
opcode announces are read, and none for an unrecognised one (R85). -/
def fetch (s : State) : Except Raise (Fetched × State) := do
  let (op, t) ← fetchOpcode s
  match opcodeMap op with
  | none => pure (.unknown op, t)
  | some o =>
    match operandCount op with
    | 0 => pure (.instr (o.instr 0 0), t)
    | 1 => do
      let (a, u) ← fetchA t
      pure (.instr (o.instr a 0), u)
    | _ => do
      let (a, u) ← fetchA t
      let (b, v) ← fetchB u
      pure (.instr (o.instr a b), v)

/-- The rest of the step of an unrecognised opcode, on the state its fetch left (R85): one report,
and `pc <- pc + 1`. -/
def skipUnknown (op : Byte) (s : State) : State := (s.report op).setPc (s.pc + 1)

end Sys2Proof.Machine
end

