-- ==== Sys2Proof/Machine/Step.lean ====
section
/-! DEFINITION. One architectural step (spec/40_execution_cycle.md R80, R81, R97; spec/00_scope.md R6). -/

namespace Sys2Proof.Machine

/-- One step: in `Running`, fetch, decode and execute one instruction, or take one fault; in `Halted`
and `Faulted`, and while reset is held (R170), nothing (R6, R81). -/
def step (s : State) : Host.Outcome State Fault Refusal :=
  if s.resetHeld then .next s else
  match s.run with
  | .running =>
    match fetch s with
    | .error r => .next (s.takeFault r)
    | .ok (.unknown op, t) => .next (skipUnknown op t)
    | .ok (.instr i, t) => commit s (exec i t)
  | .halted => .next s
  | .faulted => .next s

/-- `s` with the bytes of a table word stored where the next step fetches, running and out of reset, so
that the next step runs that instruction. It stands for the host's image load and the
release of reset (R58, R172; log 10). -/
def State.withFetchWord (s : State) (nbits w : Nat) : State :=
  { s with run := .running, resetHeld := false, mem := s.mem.load s.pc.toNat (wordBytes nbits w) }

end Sys2Proof.Machine
end

