-- ==== Sys2Proof/Machine/HostMoves.lean ====
section
/-! DEFINITION. The CORE together with its host (spec/70_reset_and_hazards.md section 1,
spec/20_memory.md R58): between any two states the host either leaves the CORE to make its step, or
makes one move of its own. -/

namespace Sys2Proof.Machine

/-- What the host does at one point of a run. -/
inductive HostMove where
  /-- Nothing: the CORE makes its step. -/
  | idle
  /-- Assert reset, at any time; a step that the CORE was making is abandoned (R170). -/
  | assertReset
  /-- Release reset (R172). -/
  | releaseReset
  /-- Load a program image (R58). -/
  | load (image : List Byte)
deriving DecidableEq, Repr

/-- The CORE and its host go on by one step or one move of the host. Asserting reset takes the place
of the step in progress, which has no effect and emits nothing (R170). `none`: the host may not make
this move (R58). -/
def advance (m : HostMove) (s : State) : Option (Host.Outcome State Fault Refusal) :=
  match m with
  | .idle => some (step s)
  | .assertReset => some (.next s.hostReset)
  | .releaseReset => some (.next s.hostRelease)
  | .load image => (s.hostLoad image).map .next

end Sys2Proof.Machine
end

