-- ==== Sys2Proof/WellFormed.lean ====
section
/-! DEFINITION. When an instruction's operands are all valid (spec/30_encoding.md R64): every
register-index byte names a register. An ill-formed instruction still decodes, and running it has the
effect the spec gives it, a register fault where it accesses the index (spec/10_state.md R23,
spec/60_exceptions.md R152); so this check is no condition of decoding or running (log 13). -/

namespace Sys2Proof

/-- A register-index byte is valid if it is below `NUM_REGS` (R23, R64). -/
def validIndex (r : Byte) : Bool := decide (r.toNat < Config.numRegs)

/-- The register-index bytes of an instruction, operand A first (R62). The immediate of LDI is none. -/
def Instr.registerOperands : Instr → List Byte
  | .hlt => []
  | .ldi ra _ => [ra]
  | .prn ra => [ra]
  | .add ra rb => [ra, rb]
  | .mul ra rb => [ra, rb]
  | .mod ra rb => [ra, rb]
  | .cmp ra rb => [ra, rb]
  | .and ra rb => [ra, rb]
  | .or ra rb => [ra, rb]
  | .xor ra rb => [ra, rb]
  | .not ra => [ra]
  | .shl ra rb => [ra, rb]
  | .shr ra rb => [ra, rb]
  | .push ra => [ra]
  | .pop ra => [ra]
  | .jmp ra => [ra]
  | .jeq ra => [ra]
  | .jne ra => [ra]
  | .call ra => [ra]
  | .ret => []

/-- Every register-index byte of the instruction is valid (R64). -/
def Instr.wellFormed (i : Instr) : Bool := i.registerOperands.all validIndex

end Sys2Proof
end

