-- ==== Sys2Proof/Safety.lean ====
section
/-! DEFINITION. The legal states of the CORE and what counts as a safe run, in the terms claims use. -/

namespace Sys2Proof

/-- The register-index bytes an instruction accesses, in the order their checks are made (spec/10_state.md
R22, spec/40_execution_cycle.md R92), `e` being FL.E: JEQ and JNE access theirs only when taken. -/
def Instr.accessed (i : Instr) (e : Bool) : List Byte :=
  match i with
  | .jeq ra => if e then [ra] else []
  | .jne ra => if e then [] else [ra]
  | .hlt | .ldi _ _ | .prn _ | .add _ _ | .mul _ _ | .mod _ _ | .cmp _ _ | .and _ _ | .or _ _
  | .xor _ _ | .not _ | .shl _ _ | .shr _ _ | .push _ | .pop _ | .jmp _ | .call _ | .ret =>
    i.registerOperands

/-- The registers an instruction may write, by index (R22): a destination operand, and `x[7]` for the
stack and call instructions. -/
def Instr.written : Instr → List Nat
  | .ldi ra _ | .add ra _ | .mul ra _ | .mod ra _ | .and ra _ | .or ra _ | .xor ra _ | .not ra
  | .shl ra _ | .shr ra _ => [ra.toNat]
  | .pop ra => [ra.toNat, 7]
  | .push _ | .call _ | .ret => [7]
  | .hlt | .prn _ | .cmp _ _ | .jmp _ | .jeq _ | .jne _ => []

end Sys2Proof

namespace Sys2Proof.Machine

/-- The fault record agrees with the run-state, and its information is one its cause can have
(spec/10_state.md R34, R35): NONE with 0 outside `Faulted`; and inside it an address that is no cell's,
an index byte that names no register, or the index of a register. -/
def State.FaultRecordLegal (s : State) : Prop :=
  match s.faultCause with
  | .none => s.run ≠ .faulted ∧ s.faultInfo = 0
  | .memOob => s.run = .faulted ∧ Config.memSize ≤ s.faultInfo.toNat
  | .regOob => s.run = .faulted ∧ Config.numRegs ≤ s.faultInfo.toNat ∧ s.faultInfo.toNat < 256
  | .divZero => s.run = .faulted ∧ s.faultInfo.toNat < Config.numRegs

/-- The states the CORE's rules allow, which every run from reset stays in. -/
structure State.Legal (s : State) : Prop where
  /-- Memory is in its canonical form: 255 byte cells and nothing outside them (R40). -/
  memory : s.mem.wf = true
  /-- `pc` holds 0 to 256 (R25). -/
  pc : s.pc.toNat ≤ 256
  /-- At most one condition bit is set: none before the first CMP, one from then on (R32). -/
  flags : s.fl.count ≤ 1
  /-- The fault record is legal (R34, R35). -/
  record : s.FaultRecordLegal
  /-- `MAR` holds the address of a successful access, or its reset value (R39, R59). -/
  mar : s.mar.toNat < Config.memSize
  /-- While reset is held, every field but memory has its reset value (R170). -/
  reset : s.resetHeld = true → s = s.hostReset

/-- The CORE makes a step: it is `Running` (R81) and reset is not held (R170). -/
def State.Active (s : State) : Prop := s.run = .running ∧ s.resetHeld = false

/-- A terminal run-state (R80). -/
def State.Terminal (s : State) : Prop := s.run = .halted ∨ s.run = .faulted

/-- What a program's course can depend on and the host's status outputs show: every part of the state
but FL.G, FL.L, IR, MAR, MDR (which no instruction reads, R31, R36, R37) and the two port records. -/
def State.ProgramEq (s t : State) : Prop :=
  s.regs = t.regs ∧ s.pc = t.pc ∧ s.fl.e = t.fl.e ∧ s.run = t.run ∧
    s.faultCause = t.faultCause ∧ s.faultInfo = t.faultInfo ∧ s.mem = t.mem ∧
    s.resetHeld = t.resetHeld

/-- The state the fetch of instruction `i` leaves (R83, R86, R59): IR holds its opcode byte, and the
trace pair the address and value of its last byte. -/
def State.afterFetch (s : State) (i : Instr) : State :=
  { s with
    ir := i.op.byte
    mar := s.pc + BitVec.ofNat 9 i.operands.length
    mdr := (encode i).getLast (by simp [encode]) }

/-- Instruction `i` stands at the pc: the bytes of memory from the pc up decode to it (R46, R60). -/
def State.AtPc (s : State) (i : Instr) : Prop :=
  ∃ rest, decode (s.bytesFrom s.pc.toNat) = .ok (i, rest)

end Sys2Proof.Machine
end

