-- ==== Sys2Proof/Certificates/Slice0/Obligations.lean ====
section
/-! DEFINITION. The statements for the provers. Each docstring names the part of the spec it formalises.

Conventions. A register operand is its byte `ra` with a proof that it names a register, and `x[ra]` is
`s.reg ⟨ra.toNat, _⟩`. A next state is written as a record update of the state before, so that every
field not named is unchanged. `s.AtPc i` says that instruction `i` stands at the pc; `s.afterFetch i`
is the state its fetch leaves. `s.Active` says that the CORE makes a step: it is
`Running` and reset is not held. -/

open Sys2Proof Sys2Proof.Machine

/-! ### Encoding -/

/-- Decoding and encoding are inverse: the decoder reads `i` and leaves `rest` exactly when the bytes
are the encoding of `i` followed by `rest`. Every operand byte takes every value (spec/30_encoding.md
sections 1, 3, 6). The opcode bytes are the spec's general-knowledge values (log 1). -/
def Obligations.DecodeInvertsEncode : Prop :=
  ∀ (bs : List Byte) (i : Instr) (rest : List Byte), decode bs = .ok (i, rest) ↔ bs = encode i ++ rest

/-- Words written out from the opcode map of spec/30_encoding.md section 3, at least one for each
family, decode to the instructions they stand for (PRESUMED opcode bytes but for the first three, log 1). -/
def Obligations.SampleWordsDecode : Prop :=
  decode [0b10000010, 0b00000000, 0b00001000] = .ok (.ldi 0 8, []) ∧
  decode [0b01000111, 0b00000000] = .ok (.prn 0, []) ∧
  decode [0b00000001] = .ok (.hlt, []) ∧
  decode [0b10100000, 0b00000001, 0b00000010] = .ok (.add 1 2, []) ∧
  decode [0b10101101, 0b11111111, 0b00000110] = .ok (.shr 0xFF 6, []) ∧
  decode [0b01101001, 0b00000011, 0b10101010] = .ok (.not 3, [0b10101010]) ∧
  decode [0b01000101, 0b00000111] = .ok (.push 7, []) ∧
  decode [0b01010000, 0b00000001] = .ok (.call 1, []) ∧
  decode [0b00010001, 0b00000000] = .ok (.ret, [0])

/-- The opcode map keeps the constraints spec/00_scope.md section 3 puts on it: the three source
values, a count field that matches each instruction's operand count, and injectivity; and every byte
that is no instruction's opcode, all with count field 3 among them, is unrecognised. -/
def Obligations.OpcodeMapKeepsItsConstraints : Prop :=
  Op.byte .ldi = 0x82 ∧ Op.byte .prn = 0x47 ∧ Op.byte .hlt = 0x01 ∧
  (∀ i : Instr, operandCount i.op.byte = i.operands.length) ∧
  (∀ o o' : Op, o.byte = o'.byte → o = o') ∧
  (∀ (b : Byte) (o : Op), opcodeMap b = some o ↔ b = o.byte) ∧
  (∀ b : Byte, operandCount b = 3 → opcodeMap b = none)

/-! ### The step -/

/-- A step from `Running` runs the instruction at the pc: it is `exec` on the state the fetch leaves,
and where that takes a fault, everything the step staged is dropped and only the run-state and the
fault record are written (spec/40_execution_cycle.md sections 3 and 4). -/
def Obligations.StepRunsTheDecodedInstruction : Prop :=
  ∀ (s : State) (i : Instr), s.Active → s.AtPc i →
    ∃ t, exec i (s.afterFetch i) = .next t ∧
      (t.run ≠ .faulted → step s = .next t) ∧
      (t.run = .faulted →
        step s = .next { s with run := .faulted, faultCause := t.faultCause, faultInfo := t.faultInfo })

/-- The bytes that make the instruction: where a recognised opcode stands at the pc and its operands
are in memory, the instruction at the pc has that operation and the operand bytes at pc+1 and pc+2
(spec/40_execution_cycle.md section 3, spec/10_state.md section 2). -/
def Obligations.OperandsFollowTheOpcode : Prop :=
  ∀ (s : State) (o : Op), opcodeMap (s.byteAt s.pc.toNat) = some o →
    s.pc.toNat + operandCount o.byte < Config.memSize →
    ∃ i, s.AtPc i ∧ i.op = o ∧
      i.operands = ([1, 2].take (operandCount o.byte)).map fun k => s.byteAt (s.pc.toNat + k)

/-- R83. A fetch at or above MEM_SIZE faults with the pc unchanged and recorded; any other step that
does not fault leaves the opcode byte in IR. -/
def Obligations.OpcodeFetchFaultsOrSetsIr : Prop :=
  ∀ s : State, s.Active →
    (Config.memSize ≤ s.pc.toNat →
      step s = .next { s with run := .faulted, faultCause := .memOob, faultInfo := s.pc }) ∧
    (s.pc.toNat < Config.memSize → ∀ t, step s = .next t → t.run ≠ .faulted →
      t.ir = s.byteAt s.pc.toNat)

/-- An unrecognised opcode is reported and skipped by one byte, whatever its count field and even at
the last cell, and nothing else changes but IR and the trace pair (spec/40_execution_cycle.md section 3,
spec/60_exceptions.md section 1; the report's content is the spec's own decision D20). -/
def Obligations.UnknownOpcodeIsReportedAndSkipped : Prop :=
  ∀ s : State, s.Active → s.pc.toNat < Config.memSize →
    opcodeMap (s.byteAt s.pc.toNat) = none →
    (s.pc + 1).toNat = s.pc.toNat + 1 ∧
    step s = .next { s with
      pc := s.pc + 1
      ir := s.byteAt s.pc.toNat
      mar := s.pc
      mdr := s.byteAt s.pc.toNat
      reports := s.reports ++ [{ pc := s.pc, opcode := s.byteAt s.pc.toNat }] }

/-- R81. In `Halted` and `Faulted` a step writes no state, makes no access (MAR and MDR stay) and emits
nothing; and a step always exists, one only. -/
def Obligations.TerminalStatesNeverChange : Prop :=
  ∀ s : State, (s.Terminal → step s = .next s) ∧ ∃ t, step s = .next t ∧ ∀ u, step s = .next u → u = t

/-- The run-state's moves (spec/40_execution_cycle.md section 1): from `Running` a step ends in
`Halted` exactly when it executes HLT, and a step that does not fault or halt stays `Running`. -/
def Obligations.OnlyHltHalts : Prop :=
  ∀ s t : State, s.Active → step s = .next t →
    (t.run = .halted ↔ s.AtPc .hlt) ∧ (t.run = .running ∨ t.run = .halted ∨ t.run = .faulted)

/-- Faults are precise (spec/60_exceptions.md section 2): a step that faults changes the run-state and
the fault record and nothing else, IR, the trace pair, memory and the ports included. -/
def Obligations.FaultsArePrecise : Prop :=
  ∀ s t : State, s.Active → step s = .next t → t.run = .faulted →
    t.faultCause ≠ .none ∧
    t = { s with run := .faulted, faultCause := t.faultCause, faultInfo := t.faultInfo }

/-- R30. Only CMP writes FL, no fault does, and CMP sets exactly one bit. -/
def Obligations.OnlyCmpWritesTheFlags : Prop :=
  ∀ s t : State, step s = .next t →
    (t.fl ≠ s.fl → s.Active ∧ t.run ≠ .faulted ∧ ∃ ra rb, s.AtPc (.cmp ra rb)) ∧
    (∀ ra rb, s.Active → s.AtPc (.cmp ra rb) → t.run ≠ .faulted →
      (t.fl = ⟨true, false, false⟩ ∨ t.fl = ⟨false, true, false⟩ ∨ t.fl = ⟨false, false, true⟩))

/-- R31. Only JEQ and JNE read FL, and only FL.E: changing FL changes nothing but FL in the next state,
unless FL.E changes under a JEQ or a JNE. -/
def Obligations.OnlyConditionalJumpsReadTheEqualFlag : Prop :=
  ∀ (s : State) (f : Flags) (t t' : State), step s = .next t → step { s with fl := f } = .next t' →
    (f.e = s.fl.e ∨ ∀ ra, ¬ s.AtPc (.jeq ra) ∧ ¬ s.AtPc (.jne ra)) →
    t' = { t with fl := t'.fl }

/-- Nothing a program does depends on FL.G, FL.L, IR, MAR, MDR or what the ports delivered before
(spec/10_state.md sections 3 and 5, spec/20_memory.md section 7): from two states that agree on
everything else, a step makes two states that again do, and delivers the same events. -/
def Obligations.HiddenStateNeverSteersAProgram : Prop :=
  ∀ s s' t t' : State, s.ProgramEq s' → step s = .next t → step s' = .next t' →
    t.ProgramEq t' ∧
    (∃ vs, t.out = s.out ++ vs ∧ t'.out = s'.out ++ vs) ∧
    (∃ rs, t.reports = s.reports ++ rs ∧ t'.reports = s'.reports ++ rs)

/-- Memory changes only by PUSH and CALL, and only the byte at the decremented stack pointer
(spec/20_memory.md section 1). -/
def Obligations.OnlyPushAndCallWriteMemory : Prop :=
  ∀ (s t : State) (a : Nat), s.mem.wf = true → step s = .next t → t.byteAt a ≠ s.byteAt a →
    s.Active ∧ t.run = .running ∧ (∃ ra, s.AtPc (.push ra) ∨ s.AtPc (.call ra)) ∧
      a = (s.sp - 1).toNat

/-- The output port delivers a value only by PRN, the named register's; the report port an event only
for an unrecognised opcode (spec/41_data_move_io.md, spec/60_exceptions.md sections 1 and 4). -/
def Obligations.PortsDeliverOnlyPrnAndUnknownOpcodes : Prop :=
  ∀ s t : State, step s = .next t →
    (t.out ≠ s.out → s.Active ∧ ∃ ra, ∃ h : ra.toNat < Config.numRegs,
      s.AtPc (.prn ra) ∧ t.out = s.out ++ [s.reg ⟨ra.toNat, h⟩]) ∧
    (t.reports ≠ s.reports → s.Active ∧ s.pc.toNat < Config.memSize ∧
      opcodeMap (s.byteAt s.pc.toNat) = none ∧
      t.reports = s.reports ++ [{ pc := s.pc, opcode := s.byteAt s.pc.toNat }])

/-- Where each step leaves the pc (spec/10_state.md section 2, spec/40_execution_cycle.md section 3,
spec/44_control_flow.md; that CALL R7 goes to the decremented SP and that NOT has one operand byte are
the spec's own decisions D17 and D37, log 12): the auto-advancing instructions add `1 + n` without
wrap, the control-flow instructions set it themselves and nothing is added afterwards, HLT and a fault
leave it, an unrecognised opcode adds 1. -/
def Obligations.WhereEachStepLeavesThePc : Prop :=
  ∀ s t : State, s.Active → step s = .next t →
    (t.run = .faulted → t.pc = s.pc) ∧
    (s.pc.toNat < Config.memSize → opcodeMap (s.byteAt s.pc.toNat) = none →
      t.pc.toNat = s.pc.toNat + 1) ∧
    (∀ i, s.AtPc i → t.run ≠ .faulted →
      match i with
      | .hlt => t.pc = s.pc
      | .ldi _ _ | .add _ _ | .mul _ _ | .mod _ _ | .cmp _ _ | .and _ _ | .or _ _ | .xor _ _
      | .shl _ _ | .shr _ _ => t.pc.toNat = s.pc.toNat + 3
      | .prn _ | .not _ | .push _ | .pop _ => t.pc.toNat = s.pc.toNat + 2
      | .jmp ra => ∃ h, t.pc.toNat = (s.reg ⟨ra.toNat, h⟩).toNat
      | .jeq ra =>
        if s.fl.e then ∃ h, t.pc.toNat = (s.reg ⟨ra.toNat, h⟩).toNat else t.pc.toNat = s.pc.toNat + 2
      | .jne ra =>
        if s.fl.e then t.pc.toNat = s.pc.toNat + 2 else ∃ h, t.pc.toNat = (s.reg ⟨ra.toNat, h⟩).toNat
      | .call ra => ∃ h, t.pc.toNat = (t.reg ⟨ra.toNat, h⟩).toNat
      | .ret => t.pc.toNat = (s.byteAt s.sp.toNat).toNat)

/-! ### Invariant -/

/-- Every step keeps the legal states: canonical memory, a pc of 0 to 256, at most one flag, a fault
record that agrees with the run-state and has an information its cause can have, a trace address that
is a cell's, and the reset values while reset is held (spec/10_state.md,
spec/70_reset_and_hazards.md section 1). -/
def Obligations.EveryStepKeepsTheLegalStates : Prop :=
  ∀ s t : State, s.Legal → step s = .next t → t.Legal

/-- The reset state is legal, and every move that the host may make in a legal state, asserting reset,
releasing it or loading an image, gives a legal state. -/
def Obligations.ResetAndLoadAreLegal : Prop :=
  State.reset.Legal ∧
    ∀ (m : HostMove) (s t : State), m ≠ .idle → s.Legal → advance m s = some (.next t) → t.Legal

/-! ### Faults -/

/-- A step faults with MEM_OOB exactly at the spec's sites (spec/60_exceptions.md section 1; the operand
sites by exact count, SP - 1 modulo 256 and the register check before the stack access are the spec's
own decisions D10, D16 and D28, log 12), with the address as computed and not
wrapped: the opcode fetch, the fetch of operand A or B, the PUSH and CALL store at the decremented SP,
the POP and RET load at SP. -/
def Obligations.MemoryFaultsExactlyAtItsSites : Prop :=
  ∀ s t : State, s.Active → step s = .next t → ∀ a : Nat,
    (t.run = .faulted ∧ t.faultCause = .memOob ∧ t.faultInfo.toNat = a) ↔
    Config.memSize ≤ a ∧
    (a = s.pc.toNat ∨
     (s.pc.toNat < Config.memSize ∧ ∃ o, opcodeMap (s.byteAt s.pc.toNat) = some o ∧
       ((1 ≤ operandCount o.byte ∧ a = s.pc.toNat + 1) ∨
        (operandCount o.byte = 2 ∧ s.pc.toNat + 1 < Config.memSize ∧ a = s.pc.toNat + 2))) ∨
     (∃ ra : Byte, ra.toNat < Config.numRegs ∧ (s.AtPc (.push ra) ∨ s.AtPc (.call ra)) ∧
       a = (s.sp - 1).toNat) ∨
     (((∃ ra : Byte, ra.toNat < Config.numRegs ∧ s.AtPc (.pop ra)) ∨ s.AtPc .ret) ∧ a = s.sp.toNat))

/-- A MOD whose register operands are valid and whose divisor value is 0 faults: the step enters
`Faulted` with DIV_ZERO and the divisor's register index, and writes no register nor anything else. And
only such a MOD faults with DIV_ZERO (spec/60_exceptions.md section 1, spec/42_alu.md; that the register
checks come before the divisor's is the spec's own decision D28, log 12). -/
def Obligations.DivideByZeroExactlyAtModZero : Prop :=
  ∀ (s t : State) (rb : Byte), s.Active → step s = .next t →
    ((∃ ra : Byte, s.AtPc (.mod ra rb) ∧ ra.toNat < Config.numRegs ∧
        ∃ h : rb.toNat < Config.numRegs, s.reg ⟨rb.toNat, h⟩ = 0) →
      t = { s with run := .faulted, faultCause := .divZero, faultInfo := rb.setWidth 9 }) ∧
    (t.run = .faulted ∧ t.faultCause = .divZero ∧ t.faultInfo.toNat = rb.toNat →
      ∃ ra : Byte, s.AtPc (.mod ra rb) ∧ ra.toNat < Config.numRegs ∧
        ∃ h : rb.toNat < Config.numRegs, s.reg ⟨rb.toNat, h⟩ = 0)

/-- A register index at or above 8 faults when it is accessed, the first such operand being recorded,
before the divisor and the stack are looked at and with nothing else changed; and where every accessed
index is valid there is no REG_OOB fault (spec/60_exceptions.md section 1, spec/40_execution_cycle.md
section 4; D12, D28 and D29 are the spec's own decisions). -/
def Obligations.RegisterFaultsExactlyAtInvalidIndex : Prop :=
  ∀ (i : Instr) (s : State), s.run ≠ .faulted →
    (∀ r, ((i.accessed s.fl.e).find? fun r => !validIndex r) = some r →
      exec i s = .next { s with run := .faulted, faultCause := .regOob, faultInfo := r.setWidth 9 }) ∧
    ((i.accessed s.fl.e).all validIndex = true → ∀ t, exec i s = .next t →
      ¬ (t.run = .faulted ∧ t.faultCause = .regOob))

/-- The stack accesses at their edges: a PUSH or CALL from SP = 0 and a POP or RET from SP = 0xFF fault
at address 0xFF, and SP keeps its value (spec/43_stack.md; D16 is the spec's own decision). -/
def Obligations.StackFaultsKeepTheStackPointer : Prop :=
  ∀ (ra : Byte) (s : State), ra.toNat < Config.numRegs →
    (s.sp = 0 →
      exec (.push ra) s = .next { s with run := .faulted, faultCause := .memOob, faultInfo := 0xFF } ∧
      exec (.call ra) s = .next { s with run := .faulted, faultCause := .memOob, faultInfo := 0xFF }) ∧
    (s.sp = 0xFF →
      exec (.pop ra) s = .next { s with run := .faulted, faultCause := .memOob, faultInfo := 0xFF } ∧
      exec .ret s = .next { s with run := .faulted, faultCause := .memOob, faultInfo := 0xFF })

/-! ### What each instruction does: completion and result -/

/-- HLT enters `Halted` and changes nothing else, the pc included (spec/41_data_move_io.md). -/
def Obligations.HltEntersHalted : Prop :=
  ∀ s : State, exec .hlt s = .next { s with run := .halted }

/-- LDI loads its immediate unchanged into any register, the stack pointer included, and advances by 3
(spec/41_data_move_io.md). -/
def Obligations.LdiLoadsItsImmediate : Prop :=
  ∀ (ra imm : Byte) (s : State) (h : ra.toNat < Config.numRegs),
    exec (.ldi ra imm) s = .next { s with regs := s.regs.set ra.toNat imm h, pc := s.pc + 3 }

/-- PRN delivers the register's value on the output port after the earlier ones and advances by 2
(spec/41_data_move_io.md). -/
def Obligations.PrnEmitsTheRegister : Prop :=
  ∀ (ra : Byte) (s : State) (h : ra.toNat < Config.numRegs),
    exec (.prn ra) s = .next { s with out := s.out ++ [s.reg ⟨ra.toNat, h⟩], pc := s.pc + 2 }

/-- ADD and MUL leave the exact sum and product modulo 256 in the first operand's register
(spec/42_alu.md). -/
def Obligations.AddAndMulReduceModulo256 : Prop :=
  ∀ (ra rb : Byte) (s : State) (ha : ra.toNat < Config.numRegs) (hb : rb.toNat < Config.numRegs),
    ∃ v w : Byte,
      v.toNat = ((s.reg ⟨ra.toNat, ha⟩).toNat + (s.reg ⟨rb.toNat, hb⟩).toNat) % 256 ∧
      w.toNat = ((s.reg ⟨ra.toNat, ha⟩).toNat * (s.reg ⟨rb.toNat, hb⟩).toNat) % 256 ∧
      exec (.add ra rb) s = .next { s with regs := s.regs.set ra.toNat v ha, pc := s.pc + 3 } ∧
      exec (.mul ra rb) s = .next { s with regs := s.regs.set ra.toNat w ha, pc := s.pc + 3 }

/-- MOD by a nonzero divisor leaves the unique remainder below the divisor (spec/42_alu.md). -/
def Obligations.ModLeavesTheRemainder : Prop :=
  ∀ (ra rb : Byte) (s : State) (ha : ra.toNat < Config.numRegs) (hb : rb.toNat < Config.numRegs),
    s.reg ⟨rb.toNat, hb⟩ ≠ 0 →
    ∃ v : Byte, v.toNat < (s.reg ⟨rb.toNat, hb⟩).toNat ∧
      (∃ q, (s.reg ⟨ra.toNat, ha⟩).toNat = q * (s.reg ⟨rb.toNat, hb⟩).toNat + v.toNat) ∧
      exec (.mod ra rb) s = .next { s with regs := s.regs.set ra.toNat v ha, pc := s.pc + 3 }

/-- CMP sets E, G and L from the unsigned comparison, writes no register and advances by 3
(spec/42_alu.md; unsigned is the spec's own decision D5). -/
def Obligations.CmpSetsTheFlagsUnsigned : Prop :=
  ∀ (ra rb : Byte) (s : State) (ha : ra.toNat < Config.numRegs) (hb : rb.toNat < Config.numRegs),
    ∃ f : Flags,
      (f.e = true ↔ (s.reg ⟨ra.toNat, ha⟩).toNat = (s.reg ⟨rb.toNat, hb⟩).toNat) ∧
      (f.g = true ↔ (s.reg ⟨ra.toNat, ha⟩).toNat > (s.reg ⟨rb.toNat, hb⟩).toNat) ∧
      (f.l = true ↔ (s.reg ⟨ra.toNat, ha⟩).toNat < (s.reg ⟨rb.toNat, hb⟩).toNat) ∧
      exec (.cmp ra rb) s = .next { s with fl := f, pc := s.pc + 3 }

/-- AND, OR and XOR combine the operands bit by bit (spec/42_alu.md). -/
def Obligations.AndOrXorActBitByBit : Prop :=
  ∀ (ra rb : Byte) (s : State) (ha : ra.toNat < Config.numRegs) (hb : rb.toNat < Config.numRegs),
    ∃ u v w : Byte,
      (∀ k, u.getLsbD k = ((s.reg ⟨ra.toNat, ha⟩).getLsbD k && (s.reg ⟨rb.toNat, hb⟩).getLsbD k)) ∧
      (∀ k, v.getLsbD k = ((s.reg ⟨ra.toNat, ha⟩).getLsbD k || (s.reg ⟨rb.toNat, hb⟩).getLsbD k)) ∧
      (∀ k, w.getLsbD k = ((s.reg ⟨ra.toNat, ha⟩).getLsbD k ^^ (s.reg ⟨rb.toNat, hb⟩).getLsbD k)) ∧
      exec (.and ra rb) s = .next { s with regs := s.regs.set ra.toNat u ha, pc := s.pc + 3 } ∧
      exec (.or ra rb) s = .next { s with regs := s.regs.set ra.toNat v ha, pc := s.pc + 3 } ∧
      exec (.xor ra rb) s = .next { s with regs := s.regs.set ra.toNat w ha, pc := s.pc + 3 }

/-- NOT inverts every bit of its one operand and advances by 2; done twice it gives the value back
(spec/42_alu.md; the operand count is the spec's own decision D37). -/
def Obligations.NotInvertsEveryBit : Prop :=
  ∀ (ra : Byte) (s : State) (h : ra.toNat < Config.numRegs),
    ∃ v : Byte, (∀ k < 8, v.getLsbD k = !(s.reg ⟨ra.toNat, h⟩).getLsbD k) ∧
      exec (.not ra) s = .next { s with regs := s.regs.set ra.toNat v h, pc := s.pc + 2 } ∧
      exec (.not ra) { s with regs := s.regs.set ra.toNat v h, pc := s.pc + 2 } =
        .next { s with pc := s.pc + 4 }

/-- SHL and SHR shift by the whole 8-bit amount: bits past the ends are lost, zeros enter at either
end, and an amount of 8 or more gives 0 (spec/42_alu.md; D30 is the spec's own decision). -/
def Obligations.ShiftsUseTheWholeAmount : Prop :=
  ∀ (ra rb : Byte) (s : State) (ha : ra.toNat < Config.numRegs) (hb : rb.toNat < Config.numRegs),
    ∃ v w : Byte,
      v.toNat = ((s.reg ⟨ra.toNat, ha⟩).toNat * 2 ^ (s.reg ⟨rb.toNat, hb⟩).toNat) % 256 ∧
      w.toNat = (s.reg ⟨ra.toNat, ha⟩).toNat / 2 ^ (s.reg ⟨rb.toNat, hb⟩).toNat ∧
      (8 ≤ (s.reg ⟨rb.toNat, hb⟩).toNat → v = 0 ∧ w = 0) ∧
      exec (.shl ra rb) s = .next { s with regs := s.regs.set ra.toNat v ha, pc := s.pc + 3 } ∧
      exec (.shr ra rb) s = .next { s with regs := s.regs.set ra.toNat w ha, pc := s.pc + 3 }

/-- PUSH decrements SP, stores the register there and advances by 2, from every SP but 0; PUSH R7
stores the decremented SP (spec/43_stack.md; D17 is the spec's own decision). -/
def Obligations.PushStoresBelowTheStackPointer : Prop :=
  ∀ (ra : Byte) (s : State) (h : ra.toNat < Config.numRegs), s.sp ≠ 0 → s.mem.wf = true →
    ∃ (v : Byte) (t : State), v = (if ra = 7 then s.sp - 1 else s.reg ⟨ra.toNat, h⟩) ∧
      exec (.push ra) s = .next t ∧
      t = { s with
        regs := s.regs.set 7 (s.sp - 1)
        mem := t.mem
        mar := (s.sp - 1).setWidth 9
        mdr := v
        pc := s.pc + 2 } ∧
      t.byteAt (s.sp - 1).toNat = v ∧
      ∀ a, a ≠ (s.sp - 1).toNat → t.byteAt a = s.byteAt a

/-- POP loads the byte at SP into the register, then increments SP modulo 256, and advances by 2, from
every SP but 0xFF; POP R7 leaves the loaded byte plus 1. No byte of memory changes (spec/43_stack.md;
D17 is the spec's own decision). -/
def Obligations.PopLoadsTheTopOfTheStack : Prop :=
  ∀ (ra : Byte) (s : State) (h : ra.toNat < Config.numRegs), s.sp ≠ 0xFF →
    exec (.pop ra) s = .next { s with
      regs := if ra = 7 then s.regs.set 7 (s.byteAt s.sp.toNat + 1)
        else (s.regs.set ra.toNat (s.byteAt s.sp.toNat) h).set 7 (s.sp + 1)
      mar := s.sp.setWidth 9
      mdr := s.byteAt s.sp.toNat
      pc := s.pc + 2 }

/-- JMP sets the pc to the register's value, zero-extended, and nothing else (spec/44_control_flow.md). -/
def Obligations.JmpSetsThePc : Prop :=
  ∀ (ra : Byte) (s : State) (h : ra.toNat < Config.numRegs),
    exec (.jmp ra) s = .next { s with pc := (s.reg ⟨ra.toNat, h⟩).setWidth 9 }

/-- JEQ is taken exactly when FL.E is set and JNE exactly when it is clear; not taken, either adds 2 to
the pc and looks at no register, so its index may be any byte (spec/44_control_flow.md; D29 is the
spec's own decision). -/
def Obligations.ConditionalJumpsTestTheEqualFlag : Prop :=
  ∀ (ra : Byte) (s : State),
    (s.fl.e = true → ∀ h : ra.toNat < Config.numRegs,
      exec (.jeq ra) s = .next { s with pc := (s.reg ⟨ra.toNat, h⟩).setWidth 9 }) ∧
    (s.fl.e = false → exec (.jeq ra) s = .next { s with pc := s.pc + 2 }) ∧
    (s.fl.e = false → ∀ h : ra.toNat < Config.numRegs,
      exec (.jne ra) s = .next { s with pc := (s.reg ⟨ra.toNat, h⟩).setWidth 9 }) ∧
    (s.fl.e = true → exec (.jne ra) s = .next { s with pc := s.pc + 2 })

/-- CALL decrements SP, stores `(pc + 2) mod 256` there and sets the pc to the register's value, read
after the push, from every SP but 0 (spec/44_control_flow.md; D17 and D18 are the spec's own decisions). -/
def Obligations.CallPushesTheReturnAddress : Prop :=
  ∀ (ra : Byte) (s : State) (h : ra.toNat < Config.numRegs), s.sp ≠ 0 → s.mem.wf = true →
    ∃ (v : Byte) (t : State), v.toNat = (s.pc.toNat + 2) % 256 ∧
      exec (.call ra) s = .next t ∧
      t = { s with
        regs := s.regs.set 7 (s.sp - 1)
        mem := t.mem
        mar := (s.sp - 1).setWidth 9
        mdr := v
        pc := (if ra = 7 then s.sp - 1 else s.reg ⟨ra.toNat, h⟩).setWidth 9 } ∧
      t.byteAt (s.sp - 1).toNat = v ∧
      ∀ a, a ≠ (s.sp - 1).toNat → t.byteAt a = s.byteAt a

/-- RET loads the byte at SP into the pc and increments SP modulo 256, from every SP but 0xFF
(spec/44_control_flow.md). -/
def Obligations.RetPopsThePc : Prop :=
  ∀ s : State, s.sp ≠ 0xFF →
    exec .ret s = .next { s with
      regs := s.regs.set 7 (s.sp + 1)
      mar := s.sp.setWidth 9
      mdr := s.byteAt s.sp.toNat
      pc := (s.byteAt s.sp.toNat).setWidth 9 }

/-! ### Frames -/

/-- The frame of every instruction outside memory: when its meaning answers a state that is not
faulted, a register changes only if the instruction writes it (its destination; `x[7]` for PUSH, POP,
CALL and RET), FL only under CMP, the run-state only under HLT, the output port only under PRN, the
trace pair only under the four stack accesses, and the fault record, IR, the report port and the reset
input never
(spec/10_state.md sections 1, 3, 4 and 5). -/
def Obligations.EachInstructionKeepsItsFrame : Prop :=
  ∀ (i : Instr) (s t : State), exec i s = .next t → t.run ≠ .faulted →
    (∀ j : Fin Config.numRegs, j.val ∉ i.written → t.reg j = s.reg j) ∧
    ((∀ ra rb, i ≠ .cmp ra rb) → t.fl = s.fl) ∧
    (i ≠ .hlt → t.run = s.run) ∧
    ((∀ ra, i ≠ .prn ra) → t.out = s.out) ∧
    ((∀ ra, i ≠ .push ra ∧ i ≠ .pop ra ∧ i ≠ .call ra) → i ≠ .ret → t.mar = s.mar ∧ t.mdr = s.mdr) ∧
    t.faultCause = s.faultCause ∧ t.faultInfo = s.faultInfo ∧ t.ir = s.ir ∧ t.reports = s.reports ∧
    t.resetHeld = s.resetHeld

/-- Every instruction but PUSH and CALL leaves every byte of memory as it was, whether it completes or
faults (spec/20_memory.md section 1). -/
def Obligations.LoadsAndRegisterFormsStoreNothing : Prop :=
  ∀ (i : Instr) (s t : State), (∀ ra, i ≠ .push ra ∧ i ≠ .call ra) → exec i s = .next t →
    ∀ a, t.byteAt a = s.byteAt a

/-- PUSH and CALL store one byte, at the address the decremented stack pointer gives. Where they
complete, that byte is the register's value read after the decrement (D17, the spec's own decision), or
the return address; every other byte reads as before, and where they fault every byte does
(spec/43_stack.md, spec/44_control_flow.md). -/
def Obligations.PushAndCallStoreOneByte : Prop :=
  ∀ (ra : Byte) (i : Instr) (s t : State), i = .push ra ∨ i = .call ra → s.mem.wf = true →
    exec i s = .next t → ∀ a, a = s.decSp.spAddr.toNat →
      (∀ b, b ≠ a → t.byteAt b = s.byteAt b) ∧
      (s.run ≠ .faulted → t.run = .faulted → t.byteAt a = s.byteAt a) ∧
      (s.run ≠ .faulted → t.run ≠ .faulted → i = .push ra → ∃ h, t.byteAt a = s.decSp.reg ⟨ra.toNat, h⟩) ∧
      (s.run ≠ .faulted → t.run ≠ .faulted → i = .call ra → (t.byteAt a).toNat = (s.pc.toNat + 2) % 256)

/-! ### Instruction sequences -/

/-- Push then pop of the same register, other than R7, gives back every register, the stack pointer
among them (spec/95_test_vectors.md S6). -/
def Obligations.PushThenPopRestoresEveryRegister : Prop :=
  ∀ (ra : Byte) (s : State), ra.toNat < Config.numRegs → ra ≠ 7 → s.sp ≠ 0 → s.mem.wf = true →
    ∃ t u, exec (.push ra) s = .next t ∧ exec (.pop ra) t = .next u ∧
      u.regs = s.regs ∧ u.pc = s.pc + 4 ∧ u.fl = s.fl ∧ u.run = s.run ∧
      ∀ a, a ≠ (s.sp - 1).toNat → u.byteAt a = s.byteAt a

/-- Call then return comes back to the instruction after the CALL with the stack at its old depth
(spec/95_test_vectors.md S7). -/
def Obligations.CallThenReturnComesBack : Prop :=
  ∀ (ra : Byte) (s : State), ra.toNat < Config.numRegs → s.sp ≠ 0 → s.mem.wf = true →
    s.pc.toNat + 1 < Config.memSize →
    ∃ t u, exec (.call ra) s = .next t ∧ exec .ret t = .next u ∧
      u.pc.toNat = s.pc.toNat + 2 ∧ u.regs = s.regs ∧ u.fl = s.fl ∧ u.run = s.run

/-- Compare then jump-if-equal: for equal values the pc goes to the target register's value, for
unequal ones past both instructions (spec/95_test_vectors.md S5). -/
def Obligations.CompareThenJumpIfEqual : Prop :=
  ∀ (ra rb rc : Byte) (s : State) (ha : ra.toNat < Config.numRegs) (hb : rb.toNat < Config.numRegs)
    (hc : rc.toNat < Config.numRegs),
    ∃ t u, exec (.cmp ra rb) s = .next t ∧ exec (.jeq rc) t = .next u ∧
      u.pc = (if s.reg ⟨ra.toNat, ha⟩ = s.reg ⟨rb.toNat, hb⟩
        then (s.reg ⟨rc.toNat, hc⟩).setWidth 9 else s.pc + 5) ∧
      u.regs = s.regs ∧ u.mem = s.mem

/-- A jump to a target that is no cell completes; the next fetch faults, with the pc at the target
(spec/44_control_flow.md). -/
def Obligations.JumpOutOfMemoryFaultsAtTheNextFetch : Prop :=
  ∀ (ra : Byte) (s : State) (h : ra.toNat < Config.numRegs), s.Active → s.AtPc (.jmp ra) →
    Config.memSize ≤ (s.reg ⟨ra.toNat, h⟩).toNat →
    ∃ t u, step s = .next t ∧ t.run = .running ∧ t.pc.toNat = (s.reg ⟨ra.toNat, h⟩).toNat ∧
      step t = .next u ∧
      u = { t with run := .faulted, faultCause := .memOob, faultInfo := t.pc }

/-- A pushed byte is what a later fetch of its address reads, the next opcode fetch included, and a
push over its own bytes still uses the operand already fetched (spec/70_reset_and_hazards.md section 2,
spec/20_memory.md section 6; D26 is the spec's own decision). -/
def Obligations.PushedByteIsSeenByTheNextFetch : Prop :=
  ∀ (ra : Byte) (s : State) (h : ra.toNat < Config.numRegs), s.Active → s.AtPc (.push ra) →
    ra ≠ 7 → s.sp ≠ 0 → s.mem.wf = true →
    ∃ t, step s = .next t ∧ t.run = .running ∧ t.pc.toNat = s.pc.toNat + 2 ∧
      t.byteAt (s.sp - 1).toNat = s.reg ⟨ra.toNat, h⟩ ∧
      ((s.sp - 1).toNat = t.pc.toNat → opcodeMap (s.reg ⟨ra.toNat, h⟩) = none →
        ∃ u, step t = .next u ∧
          u.reports = s.reports ++ [{ pc := t.pc, opcode := s.reg ⟨ra.toNat, h⟩ }])

/-! ### Memory interface, reset and the host's moves -/

/-- R42. A read of an address at or above MEM_SIZE raises; any other answers the cell's byte, and has no
effect but the trace pair's update. -/
def Obligations.MemReadChecksItsBound : Prop :=
  ∀ (a : Addr) (s : State),
    (Config.memSize ≤ a.toNat → memRead a s = .error (.memOob a)) ∧
    (a.toNat < Config.memSize →
      memRead a s = .ok (s.byteAt a.toNat, { s with mar := a, mdr := s.byteAt a.toNat }))

/-- R43. A write to an address at or above MEM_SIZE raises; any other sets that cell and no other one,
and has no further effect but the trace pair's update. -/
def Obligations.MemWriteSetsOneCell : Prop :=
  ∀ (a : Addr) (v : Byte) (s : State), s.mem.wf = true →
    (Config.memSize ≤ a.toNat → memWrite a v s = .error (.memOob a)) ∧
    (a.toNat < Config.memSize → ∃ t, memWrite a v s = .ok t ∧ t.byteAt a.toNat = v ∧
      (∀ b, b ≠ a.toNat → t.byteAt b = s.byteAt b) ∧
      t = { s with mem := t.mem, mar := a, mdr := v })

/-- R11. After reset register 7, the stack pointer, holds 0xF4; and the pc is 0 (spec/00_scope.md
section 3). -/
def Obligations.ResetSetsStackPointerAndPc : Prop :=
  State.reset.sp = 0xF4 ∧ State.reset.pc = 0

/-- The whole reset table (spec/10_state.md section 6). R0 to R6, FL, the fault record, IR, MAR, MDR and
memory are the spec's own decisions D6, D8, D9, D14, D23 and D32 (log 2 to 5), and the empty port
records and the released reset input the model's choices (log 7, log 17). -/
def Obligations.ResetTable : Prop :=
  (∀ j : Fin Config.numRegs, State.reset.reg j = if j = 7 then 0xF4 else 0) ∧
  State.reset.pc = 0 ∧ State.reset.fl = ⟨false, false, false⟩ ∧ State.reset.run = .running ∧
  State.reset.statusOutputs = (0b00, 0, 0) ∧ State.reset.ir = 0 ∧ State.reset.mar = 0 ∧
  State.reset.mdr = 0 ∧ (∀ a, State.reset.byteAt a = 0) ∧ State.reset.out = [] ∧ State.reset.reports = [] ∧
  State.reset.resetHeld = false

/-- The host's reset, from any state: R0 to R6, R7, the pc, FL, the run-state, the fault record, IR, MAR
and MDR take the values of the reset table, no byte of memory changes, and reset is held
(spec/70_reset_and_hazards.md section 1, spec/10_state.md section 6). The values of R0 to R6, FL, the
fault record, IR, MAR and MDR and the keeping of memory are the spec's own decisions D6, D8, D14, D23,
D25 and D32 (log 2, 4, 5), and the emptied port records the model's choice (log 7). -/
def Obligations.HostResetKeepsMemory : Prop :=
  ∀ s : State,
    (∀ j : Fin Config.numRegs, s.hostReset.reg j = if j = 7 then 0xF4 else 0) ∧
    s.hostReset.pc = 0 ∧ s.hostReset.fl = ⟨false, false, false⟩ ∧ s.hostReset.run = .running ∧
    s.hostReset.faultCause = .none ∧ s.hostReset.faultInfo = 0 ∧ s.hostReset.ir = 0 ∧
    s.hostReset.mar = 0 ∧ s.hostReset.mdr = 0 ∧ (∀ a, s.hostReset.byteAt a = s.byteAt a) ∧
    s.hostReset.out = [] ∧ s.hostReset.reports = [] ∧ s.hostReset.resetHeld = true

/-- The CORE makes no step while reset is held, whatever the run-state is: nothing is read, written or
emitted (spec/70_reset_and_hazards.md section 1; D25 is the spec's own decision). -/
def Obligations.NoStepWhileResetIsHeld : Prop :=
  ∀ s : State, s.resetHeld = true → step s = .next s

/-- The host may assert reset at any time, and the step in progress then has no effect: the state after
is the reset of the state that step began in, none of its stores is in memory, and asserting reset
again changes nothing (spec/70_reset_and_hazards.md section 1; D25 is the spec's own decision). -/
def Obligations.ResetAbandonsTheStepInProgress : Prop :=
  ∀ s : State, ∃ t, advance .assertReset s = some (.next t) ∧ (∀ a, t.byteAt a = s.byteAt a) ∧
    t.out = [] ∧ t.reports = [] ∧ advance .assertReset t = some (.next t) ∧
    advance .idle t = some (.next t)

/-- Reset, load, release: from any state the three moves are allowed for an image that fits, and the
CORE then makes a step that fetches its opcode at address 0, the first byte of the image
(spec/70_reset_and_hazards.md section 1; D22, D25 and D36 are the spec's own decisions). -/
def Obligations.FirstStepAfterResetFetchesAtZero : Prop :=
  ∀ (s : State) (op : Byte) (image : List Byte), s.mem.wf = true →
    image.length < Config.memSize →
    ∃ t u, advance .assertReset s = some (.next t) ∧ advance (.load (op :: image)) t = some (.next u) ∧
      ∃ v, advance .releaseReset u = some (.next v) ∧ v.Active ∧ v.pc = 0 ∧ v.byteAt 0 = op ∧
        ∀ w, step v = .next w → w.run ≠ .faulted → w.ir = op

/-- The host's load: allowed exactly while reset is held or in a terminal run-state, and for an image
of at most MEM_SIZE bytes; it writes byte `k` of the image to cell `k`, no other cell and no other state
(spec/20_memory.md section 7; D22 and D36 are the spec's own decisions). -/
def Obligations.HostLoadPlacesTheImage : Prop :=
  ∀ (s : State) (image : List Byte), s.mem.wf = true →
    ((s.hostLoad image).isSome = true ↔
      (s.resetHeld = true ∨ s.Terminal) ∧ image.length ≤ Config.memSize) ∧
    ∀ t, s.hostLoad image = some t →
      (∀ k (h : k < image.length), t.byteAt k = image[k]) ∧
      (∀ a, image.length ≤ a → t.byteAt a = s.byteAt a) ∧
      t = { s with mem := t.mem }

/-- The codes of the status outputs: `run` 0, 1, 2 and never 3; FAULT_CAUSE 1, 2, 3 for its three kinds
(spec/10_state.md section 4; D14 and D21 are the spec's own decisions). -/
def Obligations.StatusCodes : Prop :=
  (∀ r : RunState, r.code ≠ 0b11) ∧
  (∀ (s : State) (a : Addr), (s.takeFault (.memOob a)).statusOutputs = (0b10, 1, a)) ∧
  (∀ (s : State) (i : Byte), (s.takeFault (.regOob i)).statusOutputs = (0b10, 2, i.setWidth 9)) ∧
  (∀ (s : State) (i : Byte), (s.takeFault (.divZero i)).statusOutputs = (0b10, 3, i.setWidth 9)) ∧
  (∀ s : State, (s.setRun .halted).statusOutputs.1 = 0b01)
end

