-- ==== Sys2Proof/Laws/Decode.lean ====
section
/-! SUPPORT. The opcode map's small facts, each checked over all opcode bytes or operations. -/

namespace Sys2Proof.Laws

/-- Each operation's byte maps back to it: the table lists every operation, and no byte twice. -/
theorem opcodeMap_byte (o : Op) : opcodeMap o.byte = some o := by cases o <;> decide

/-- A byte that maps to an operation is that operation's byte. -/
theorem byte_of_opcodeMap {b : Byte} {o : Op} (h : opcodeMap b = some o) : o.byte = b := by
  have key : ∀ b : Byte, (opcodeMap b).all (fun o => o.byte == b) = true := by decide
  simpa [h] using key b

theorem opcodeMap_eq_some_iff {b : Byte} {o : Op} : opcodeMap b = some o ↔ b = o.byte :=
  ⟨fun h => (byte_of_opcodeMap h).symm, fun h => h ▸ opcodeMap_byte o⟩

/-- How many operand bytes an operation's format has (R62). -/
theorem operandCount_byte (i : Instr) : operandCount i.op.byte = i.operands.length := by
  cases i <;> simp only [Instr.op, Instr.operands, List.length_cons, List.length_nil] <;> decide

/-- An instruction's operation, given back its own operand bytes, is the instruction. -/
theorem op_instr (i : Instr) (a b : Byte) :
    i.op.instr ((i.operands ++ [a, b])[0]'(by simp)) ((i.operands ++ [a, b])[1]'(by simp)) = i := by
  cases i <;> rfl

theorem instr_op (o : Op) (a b : Byte) : (o.instr a b).op = o := by cases o <;> rfl

/-- The operand bytes of the instruction an operation makes, by its operand count. -/
theorem instr_operands (o : Op) (a b : Byte) :
    (o.instr a b).operands = [a, b].take (operandCount o.byte) := by
  have h : operandCount o.byte = (o.instr 0 0).operands.length := by cases o <;> decide
  rw [h]
  cases o <;> rfl

theorem operandCount_le_two (o : Op) : operandCount o.byte ≤ 2 := by cases o <;> decide

/-- The operands an operation does not use do not matter. -/
theorem instr_count_zero {o : Op} (h : operandCount o.byte = 0) (a b : Byte) :
    o.instr a b = o.instr 0 0 := by cases o <;> first | rfl | exact absurd h (by decide)

theorem instr_count_one {o : Op} (h : operandCount o.byte = 1) (a b : Byte) :
    o.instr a b = o.instr a 0 := by cases o <;> first | rfl | exact absurd h (by decide)

end Sys2Proof.Laws
end

