-- ==== Sys2Proof/Laws/Memory.lean ====
section
/-! SUPPORT. The memory laws: a read after a write, the canonical form kept, and equal reads make
equal memories. -/

namespace Sys2Proof.Machine

@[simp] theorem Memory.read_nil (a : Nat) : Memory.read [] a = Memory.fill := rfl

theorem Memory.read_cons (k : Nat) (v : Byte) (m : Memory) (a : Nat) :
    Memory.read ((k, v) :: m) a = if k = a then v else m.read a := rfl

theorem Memory.wfFrom_cons (lo a : Nat) (v : Byte) (m : Memory) :
    Memory.wfFrom lo ((a, v) :: m) = true ↔
      lo ≤ a ∧ a < Config.memSize ∧ v ≠ Memory.fill ∧ Memory.wfFrom (a + 1) m = true := by
  simp [Memory.wfFrom, and_assoc]

/-- A canonical memory from `lo` up lists nothing below `lo`. -/
theorem Memory.read_below {m : Memory} : ∀ {lo a : Nat}, Memory.wfFrom lo m = true → a < lo →
    m.read a = Memory.fill := by
  induction m with
  | nil => intros; rfl
  | cons c m ih =>
    obtain ⟨k, v⟩ := c
    intro lo a h ha
    obtain ⟨h1, -, -, h4⟩ := (Memory.wfFrom_cons ..).1 h
    rw [Memory.read_cons, if_neg (by omega)]
    exact ih h4 (by omega)

/-- A canonical memory lists nothing above the cells. -/
theorem Memory.read_outside {m : Memory} : ∀ {lo a : Nat}, Memory.wfFrom lo m = true →
    Config.memSize ≤ a → m.read a = Memory.fill := by
  induction m with
  | nil => intros; rfl
  | cons c m ih =>
    obtain ⟨k, v⟩ := c
    intro lo a h ha
    obtain ⟨-, h2, -, h4⟩ := (Memory.wfFrom_cons ..).1 h
    rw [Memory.read_cons, if_neg (by omega)]
    exact ih h4 ha

/-- The canonical form may start lower. -/
theorem Memory.wfFrom_mono {m : Memory} {lo lo' : Nat} (h : Memory.wfFrom lo m = true)
    (hl : lo' ≤ lo) : Memory.wfFrom lo' m = true := by
  cases m with
  | nil => rfl
  | cons c m =>
    obtain ⟨h1, h2⟩ := (Memory.wfFrom_cons ..).1 h
    exact (Memory.wfFrom_cons ..).2 ⟨by omega, h2⟩

/-- Reading after a write, everywhere. -/
theorem Memory.read_write {m : Memory} : ∀ {lo : Nat}, Memory.wfFrom lo m = true →
    ∀ (a : Nat) (v : Byte) (b : Nat), (m.write a v).read b = if a = b then v else m.read b := by
  induction m with
  | nil =>
    intro lo _ a v b
    simp only [Memory.write]
    split <;> simp_all [Memory.read_cons]
  | cons c m ih =>
    obtain ⟨k, w⟩ := c
    intro lo h a v b
    obtain ⟨-, -, -, h4⟩ := (Memory.wfFrom_cons ..).1 h
    simp only [Memory.write]
    by_cases hlt : a < k
    · rw [if_pos hlt]
      by_cases hv : v = Memory.fill
      · rw [if_pos hv]
        split
        · next e =>
          rw [Memory.read_cons, if_neg (by omega), hv]
          exact Memory.read_below h4 (by omega)
        · rfl
      · rw [if_neg hv, Memory.read_cons]
    · rw [if_neg hlt]
      by_cases he : a = k
      · rw [if_pos he]
        by_cases hv : v = Memory.fill
        · rw [if_pos hv]
          split
          · next e => rw [hv]; exact Memory.read_below h4 (by omega)
          · rw [Memory.read_cons, if_neg (by omega)]
        · rw [if_neg hv, Memory.read_cons, Memory.read_cons]
          split
          · rfl
          · rw [if_neg (by omega)]
      · rw [if_neg he, Memory.read_cons, Memory.read_cons, ih h4]
        split
        · rw [if_neg (by omega)]
        · rfl

/-- A write to a cell keeps the canonical form. -/
theorem Memory.wfFrom_write {m : Memory} : ∀ {lo : Nat}, Memory.wfFrom lo m = true →
    ∀ {a : Nat} (v : Byte), lo ≤ a → a < Config.memSize → Memory.wfFrom lo (m.write a v) = true := by
  induction m with
  | nil =>
    intro lo _ a v h1 h2
    simp only [Memory.write]
    split
    · rfl
    · next hv => exact (Memory.wfFrom_cons ..).2 ⟨h1, h2, hv, rfl⟩
  | cons c m ih =>
    obtain ⟨k, w⟩ := c
    intro lo h a v h1 h2
    obtain ⟨g1, g2, g3, g4⟩ := (Memory.wfFrom_cons ..).1 h
    simp only [Memory.write]
    split
    · split
      · exact h
      · next hv =>
        exact (Memory.wfFrom_cons ..).2 ⟨h1, h2, hv, (Memory.wfFrom_cons ..).2 ⟨by omega, g2, g3, g4⟩⟩
    · split
      · split
        · exact Memory.wfFrom_mono g4 (by omega)
        · next e hv => exact (Memory.wfFrom_cons ..).2 ⟨h1, h2, hv, e ▸ g4⟩
      · exact (Memory.wfFrom_cons ..).2 ⟨g1, g2, g3, ih g4 v (by omega) h2⟩

/-- Two canonical memories that read alike are the same memory. -/
theorem Memory.eq_of_read_eq {m m' : Memory} : ∀ {lo lo' : Nat}, Memory.wfFrom lo m = true →
    Memory.wfFrom lo' m' = true → (∀ a, m.read a = m'.read a) → m = m' := by
  induction m generalizing m' with
  | nil =>
    intro lo lo' _ h' e
    cases m' with
    | nil => rfl
    | cons c m' =>
      obtain ⟨k, v⟩ := c
      obtain ⟨-, -, h3, -⟩ := (Memory.wfFrom_cons ..).1 h'
      exact absurd (by simpa [Memory.read_cons] using (e k).symm) h3
  | cons c m ih =>
    obtain ⟨k, v⟩ := c
    intro lo lo' h h' e
    obtain ⟨-, -, h3, h4⟩ := (Memory.wfFrom_cons ..).1 h
    cases m' with
    | nil => exact absurd (by simpa [Memory.read_cons] using e k) h3
    | cons c' m' =>
      obtain ⟨k', v'⟩ := c'
      obtain ⟨-, -, g3, g4⟩ := (Memory.wfFrom_cons ..).1 h'
      have hk : k = k' := by
        rcases Nat.lt_trichotomy k k' with hlt | heq | hgt
        · have := e k
          rw [Memory.read_cons, if_pos rfl, Memory.read_cons, if_neg (by omega),
            Memory.read_below g4 (by omega)] at this
          exact absurd this h3
        · exact heq
        · have := e k'
          rw [Memory.read_cons, if_neg (by omega), Memory.read_below h4 (by omega),
            Memory.read_cons, if_pos rfl] at this
          exact absurd this.symm g3
      subst hk
      have hv : v = v' := by simpa [Memory.read_cons] using e k
      subst hv
      rw [ih h4 g4]
      intro a
      by_cases ha : k = a
      · subst ha
        rw [Memory.read_below h4 (by omega), Memory.read_below g4 (by omega)]
      · simpa [Memory.read_cons, ha] using e a

/-! ### The same for whole memories -/

@[simp] theorem Memory.wf_nil : Memory.wf [] = true := rfl

theorem Memory.wf_write {m : Memory} (h : m.wf = true) {a : Nat} (v : Byte) (ha : a < Config.memSize) :
    (m.write a v).wf = true := Memory.wfFrom_write h v (Nat.zero_le _) ha

theorem Memory.read_write_self {m : Memory} (h : m.wf = true) (a : Nat) (v : Byte) :
    (m.write a v).read a = v := by simp [Memory.read_write h]

theorem Memory.read_write_of_ne {m : Memory} (h : m.wf = true) {a b : Nat} (v : Byte) (hab : a ≠ b) :
    (m.write a v).read b = m.read b := by simp [Memory.read_write h, hab]

/-- The host's load keeps the canonical form. -/
theorem Memory.wf_load {m : Memory} (h : m.wf = true) (a : Nat) (vs : List Byte) :
    (m.load a vs).wf = true := by
  induction vs generalizing m a with
  | nil => exact h
  | cons v vs ih =>
    rw [Memory.load]
    split
    · next ha => exact ih (Memory.wf_write h v ha) _
    · exact ih h _

/-- What a loaded memory reads as, at a cell. -/
theorem Memory.read_load {m : Memory} (h : m.wf = true) (a : Nat) (vs : List Byte) {b : Nat}
    (hb : b < Config.memSize) :
    (m.load a vs).read b = if h : a ≤ b ∧ b - a < vs.length then vs[b - a] else m.read b := by
  induction vs generalizing m a with
  | nil => simp [Memory.load]
  | cons v vs ih =>
    rw [Memory.load]
    have key : ∀ {m' : Memory}, m'.wf = true → (a = b → m'.read b = v) →
        (a ≠ b → m'.read b = m.read b) →
        (m'.load (a + 1) vs).read b =
          if h : a ≤ b ∧ b - a < (v :: vs).length then (v :: vs)[b - a] else m.read b := by
      intro m' h' e1 e2
      rw [ih h']
      rcases Nat.lt_trichotomy a b with hlt | heq | hgt
      · by_cases hl : b - (a + 1) < vs.length
        · rw [dif_pos ⟨by omega, hl⟩, dif_pos ⟨by omega, by simp; omega⟩]
          have : b - a = b - (a + 1) + 1 := by omega
          simp only [this, List.getElem_cons_succ]
        · rw [dif_neg (fun c => hl c.2), dif_neg (by simp; omega)]
          exact e2 (by omega)
      · subst heq
        rw [dif_neg (by omega), dif_pos ⟨by omega, by simp⟩]
        simpa using e1 rfl
      · rw [dif_neg (by omega), dif_neg (by omega)]
        exact e2 (by omega)
    split
    · next ha =>
      exact key (Memory.wf_write h v ha) (fun e => by rw [e, Memory.read_write_self h])
        (fun e => Memory.read_write_of_ne h v e)
    · next ha => exact key h (fun e => by omega) (fun _ => rfl)

end Sys2Proof.Machine
end

