-- ==== Sys2Proof/Laws/State.lean ====
section
/-! SUPPORT. What each update of the state does to each field, so that no proof unfolds a record update;
and reading a register after writing one. -/

namespace Sys2Proof.Machine

variable (s : State)

/-! ### `setReg` -/

@[simp] theorem State.setReg_regs (i : Fin Config.numRegs) (v : Byte) : (s.setReg i v).regs = s.regs.set i v := rfl
@[simp] theorem State.setReg_pc (i : Fin Config.numRegs) (v : Byte) : (s.setReg i v).pc = s.pc := rfl
@[simp] theorem State.setReg_fl (i : Fin Config.numRegs) (v : Byte) : (s.setReg i v).fl = s.fl := rfl
@[simp] theorem State.setReg_run (i : Fin Config.numRegs) (v : Byte) : (s.setReg i v).run = s.run := rfl
@[simp] theorem State.setReg_faultCause (i : Fin Config.numRegs) (v : Byte) : (s.setReg i v).faultCause = s.faultCause := rfl
@[simp] theorem State.setReg_faultInfo (i : Fin Config.numRegs) (v : Byte) : (s.setReg i v).faultInfo = s.faultInfo := rfl
@[simp] theorem State.setReg_ir (i : Fin Config.numRegs) (v : Byte) : (s.setReg i v).ir = s.ir := rfl
@[simp] theorem State.setReg_mar (i : Fin Config.numRegs) (v : Byte) : (s.setReg i v).mar = s.mar := rfl
@[simp] theorem State.setReg_mdr (i : Fin Config.numRegs) (v : Byte) : (s.setReg i v).mdr = s.mdr := rfl
@[simp] theorem State.setReg_mem (i : Fin Config.numRegs) (v : Byte) : (s.setReg i v).mem = s.mem := rfl
@[simp] theorem State.setReg_out (i : Fin Config.numRegs) (v : Byte) : (s.setReg i v).out = s.out := rfl
@[simp] theorem State.setReg_reports (i : Fin Config.numRegs) (v : Byte) : (s.setReg i v).reports = s.reports := rfl
@[simp] theorem State.setReg_resetHeld (i : Fin Config.numRegs) (v : Byte) : (s.setReg i v).resetHeld = s.resetHeld := rfl

/-! ### `setPc` -/

@[simp] theorem State.setPc_regs (p : Addr) : (s.setPc p).regs = s.regs := rfl
@[simp] theorem State.setPc_pc (p : Addr) : (s.setPc p).pc = p := rfl
@[simp] theorem State.setPc_fl (p : Addr) : (s.setPc p).fl = s.fl := rfl
@[simp] theorem State.setPc_run (p : Addr) : (s.setPc p).run = s.run := rfl
@[simp] theorem State.setPc_faultCause (p : Addr) : (s.setPc p).faultCause = s.faultCause := rfl
@[simp] theorem State.setPc_faultInfo (p : Addr) : (s.setPc p).faultInfo = s.faultInfo := rfl
@[simp] theorem State.setPc_ir (p : Addr) : (s.setPc p).ir = s.ir := rfl
@[simp] theorem State.setPc_mar (p : Addr) : (s.setPc p).mar = s.mar := rfl
@[simp] theorem State.setPc_mdr (p : Addr) : (s.setPc p).mdr = s.mdr := rfl
@[simp] theorem State.setPc_mem (p : Addr) : (s.setPc p).mem = s.mem := rfl
@[simp] theorem State.setPc_out (p : Addr) : (s.setPc p).out = s.out := rfl
@[simp] theorem State.setPc_reports (p : Addr) : (s.setPc p).reports = s.reports := rfl
@[simp] theorem State.setPc_resetHeld (p : Addr) : (s.setPc p).resetHeld = s.resetHeld := rfl

/-! ### `setFl` -/

@[simp] theorem State.setFl_regs (f : Flags) : (s.setFl f).regs = s.regs := rfl
@[simp] theorem State.setFl_pc (f : Flags) : (s.setFl f).pc = s.pc := rfl
@[simp] theorem State.setFl_fl (f : Flags) : (s.setFl f).fl = f := rfl
@[simp] theorem State.setFl_run (f : Flags) : (s.setFl f).run = s.run := rfl
@[simp] theorem State.setFl_faultCause (f : Flags) : (s.setFl f).faultCause = s.faultCause := rfl
@[simp] theorem State.setFl_faultInfo (f : Flags) : (s.setFl f).faultInfo = s.faultInfo := rfl
@[simp] theorem State.setFl_ir (f : Flags) : (s.setFl f).ir = s.ir := rfl
@[simp] theorem State.setFl_mar (f : Flags) : (s.setFl f).mar = s.mar := rfl
@[simp] theorem State.setFl_mdr (f : Flags) : (s.setFl f).mdr = s.mdr := rfl
@[simp] theorem State.setFl_mem (f : Flags) : (s.setFl f).mem = s.mem := rfl
@[simp] theorem State.setFl_out (f : Flags) : (s.setFl f).out = s.out := rfl
@[simp] theorem State.setFl_reports (f : Flags) : (s.setFl f).reports = s.reports := rfl
@[simp] theorem State.setFl_resetHeld (f : Flags) : (s.setFl f).resetHeld = s.resetHeld := rfl

/-! ### `setRun` -/

@[simp] theorem State.setRun_regs (r : RunState) : (s.setRun r).regs = s.regs := rfl
@[simp] theorem State.setRun_pc (r : RunState) : (s.setRun r).pc = s.pc := rfl
@[simp] theorem State.setRun_fl (r : RunState) : (s.setRun r).fl = s.fl := rfl
@[simp] theorem State.setRun_run (r : RunState) : (s.setRun r).run = r := rfl
@[simp] theorem State.setRun_faultCause (r : RunState) : (s.setRun r).faultCause = s.faultCause := rfl
@[simp] theorem State.setRun_faultInfo (r : RunState) : (s.setRun r).faultInfo = s.faultInfo := rfl
@[simp] theorem State.setRun_ir (r : RunState) : (s.setRun r).ir = s.ir := rfl
@[simp] theorem State.setRun_mar (r : RunState) : (s.setRun r).mar = s.mar := rfl
@[simp] theorem State.setRun_mdr (r : RunState) : (s.setRun r).mdr = s.mdr := rfl
@[simp] theorem State.setRun_mem (r : RunState) : (s.setRun r).mem = s.mem := rfl
@[simp] theorem State.setRun_out (r : RunState) : (s.setRun r).out = s.out := rfl
@[simp] theorem State.setRun_reports (r : RunState) : (s.setRun r).reports = s.reports := rfl
@[simp] theorem State.setRun_resetHeld (r : RunState) : (s.setRun r).resetHeld = s.resetHeld := rfl

/-! ### `setIr` -/

@[simp] theorem State.setIr_regs (b : Byte) : (s.setIr b).regs = s.regs := rfl
@[simp] theorem State.setIr_pc (b : Byte) : (s.setIr b).pc = s.pc := rfl
@[simp] theorem State.setIr_fl (b : Byte) : (s.setIr b).fl = s.fl := rfl
@[simp] theorem State.setIr_run (b : Byte) : (s.setIr b).run = s.run := rfl
@[simp] theorem State.setIr_faultCause (b : Byte) : (s.setIr b).faultCause = s.faultCause := rfl
@[simp] theorem State.setIr_faultInfo (b : Byte) : (s.setIr b).faultInfo = s.faultInfo := rfl
@[simp] theorem State.setIr_ir (b : Byte) : (s.setIr b).ir = b := rfl
@[simp] theorem State.setIr_mar (b : Byte) : (s.setIr b).mar = s.mar := rfl
@[simp] theorem State.setIr_mdr (b : Byte) : (s.setIr b).mdr = s.mdr := rfl
@[simp] theorem State.setIr_mem (b : Byte) : (s.setIr b).mem = s.mem := rfl
@[simp] theorem State.setIr_out (b : Byte) : (s.setIr b).out = s.out := rfl
@[simp] theorem State.setIr_reports (b : Byte) : (s.setIr b).reports = s.reports := rfl
@[simp] theorem State.setIr_resetHeld (b : Byte) : (s.setIr b).resetHeld = s.resetHeld := rfl

/-! ### `setTrace` -/

@[simp] theorem State.setTrace_regs (a : Addr) (b : Byte) : (s.setTrace a b).regs = s.regs := rfl
@[simp] theorem State.setTrace_pc (a : Addr) (b : Byte) : (s.setTrace a b).pc = s.pc := rfl
@[simp] theorem State.setTrace_fl (a : Addr) (b : Byte) : (s.setTrace a b).fl = s.fl := rfl
@[simp] theorem State.setTrace_run (a : Addr) (b : Byte) : (s.setTrace a b).run = s.run := rfl
@[simp] theorem State.setTrace_faultCause (a : Addr) (b : Byte) : (s.setTrace a b).faultCause = s.faultCause := rfl
@[simp] theorem State.setTrace_faultInfo (a : Addr) (b : Byte) : (s.setTrace a b).faultInfo = s.faultInfo := rfl
@[simp] theorem State.setTrace_ir (a : Addr) (b : Byte) : (s.setTrace a b).ir = s.ir := rfl
@[simp] theorem State.setTrace_mar (a : Addr) (b : Byte) : (s.setTrace a b).mar = a := rfl
@[simp] theorem State.setTrace_mdr (a : Addr) (b : Byte) : (s.setTrace a b).mdr = b := rfl
@[simp] theorem State.setTrace_mem (a : Addr) (b : Byte) : (s.setTrace a b).mem = s.mem := rfl
@[simp] theorem State.setTrace_out (a : Addr) (b : Byte) : (s.setTrace a b).out = s.out := rfl
@[simp] theorem State.setTrace_reports (a : Addr) (b : Byte) : (s.setTrace a b).reports = s.reports := rfl
@[simp] theorem State.setTrace_resetHeld (a : Addr) (b : Byte) : (s.setTrace a b).resetHeld = s.resetHeld := rfl

/-! ### `setMem` -/

@[simp] theorem State.setMem_regs (m : Memory) : (s.setMem m).regs = s.regs := rfl
@[simp] theorem State.setMem_pc (m : Memory) : (s.setMem m).pc = s.pc := rfl
@[simp] theorem State.setMem_fl (m : Memory) : (s.setMem m).fl = s.fl := rfl
@[simp] theorem State.setMem_run (m : Memory) : (s.setMem m).run = s.run := rfl
@[simp] theorem State.setMem_faultCause (m : Memory) : (s.setMem m).faultCause = s.faultCause := rfl
@[simp] theorem State.setMem_faultInfo (m : Memory) : (s.setMem m).faultInfo = s.faultInfo := rfl
@[simp] theorem State.setMem_ir (m : Memory) : (s.setMem m).ir = s.ir := rfl
@[simp] theorem State.setMem_mar (m : Memory) : (s.setMem m).mar = s.mar := rfl
@[simp] theorem State.setMem_mdr (m : Memory) : (s.setMem m).mdr = s.mdr := rfl
@[simp] theorem State.setMem_mem (m : Memory) : (s.setMem m).mem = m := rfl
@[simp] theorem State.setMem_out (m : Memory) : (s.setMem m).out = s.out := rfl
@[simp] theorem State.setMem_reports (m : Memory) : (s.setMem m).reports = s.reports := rfl
@[simp] theorem State.setMem_resetHeld (m : Memory) : (s.setMem m).resetHeld = s.resetHeld := rfl

/-! ### `emit` -/

@[simp] theorem State.emit_regs (v : Byte) : (s.emit v).regs = s.regs := rfl
@[simp] theorem State.emit_pc (v : Byte) : (s.emit v).pc = s.pc := rfl
@[simp] theorem State.emit_fl (v : Byte) : (s.emit v).fl = s.fl := rfl
@[simp] theorem State.emit_run (v : Byte) : (s.emit v).run = s.run := rfl
@[simp] theorem State.emit_faultCause (v : Byte) : (s.emit v).faultCause = s.faultCause := rfl
@[simp] theorem State.emit_faultInfo (v : Byte) : (s.emit v).faultInfo = s.faultInfo := rfl
@[simp] theorem State.emit_ir (v : Byte) : (s.emit v).ir = s.ir := rfl
@[simp] theorem State.emit_mar (v : Byte) : (s.emit v).mar = s.mar := rfl
@[simp] theorem State.emit_mdr (v : Byte) : (s.emit v).mdr = s.mdr := rfl
@[simp] theorem State.emit_mem (v : Byte) : (s.emit v).mem = s.mem := rfl
@[simp] theorem State.emit_out (v : Byte) : (s.emit v).out = s.out ++ [v] := rfl
@[simp] theorem State.emit_reports (v : Byte) : (s.emit v).reports = s.reports := rfl
@[simp] theorem State.emit_resetHeld (v : Byte) : (s.emit v).resetHeld = s.resetHeld := rfl

/-! ### `report` -/

@[simp] theorem State.report_regs (op : Byte) : (s.report op).regs = s.regs := rfl
@[simp] theorem State.report_pc (op : Byte) : (s.report op).pc = s.pc := rfl
@[simp] theorem State.report_fl (op : Byte) : (s.report op).fl = s.fl := rfl
@[simp] theorem State.report_run (op : Byte) : (s.report op).run = s.run := rfl
@[simp] theorem State.report_faultCause (op : Byte) : (s.report op).faultCause = s.faultCause := rfl
@[simp] theorem State.report_faultInfo (op : Byte) : (s.report op).faultInfo = s.faultInfo := rfl
@[simp] theorem State.report_ir (op : Byte) : (s.report op).ir = s.ir := rfl
@[simp] theorem State.report_mar (op : Byte) : (s.report op).mar = s.mar := rfl
@[simp] theorem State.report_mdr (op : Byte) : (s.report op).mdr = s.mdr := rfl
@[simp] theorem State.report_mem (op : Byte) : (s.report op).mem = s.mem := rfl
@[simp] theorem State.report_out (op : Byte) : (s.report op).out = s.out := rfl
@[simp] theorem State.report_reports (op : Byte) : (s.report op).reports = s.reports ++ [{ pc := s.pc, opcode := op }] := rfl
@[simp] theorem State.report_resetHeld (op : Byte) : (s.report op).resetHeld = s.resetHeld := rfl

/-! ### `takeFault` -/

@[simp] theorem State.takeFault_regs (r : Raise) : (s.takeFault r).regs = s.regs := rfl
@[simp] theorem State.takeFault_pc (r : Raise) : (s.takeFault r).pc = s.pc := rfl
@[simp] theorem State.takeFault_fl (r : Raise) : (s.takeFault r).fl = s.fl := rfl
@[simp] theorem State.takeFault_run (r : Raise) : (s.takeFault r).run = .faulted := rfl
@[simp] theorem State.takeFault_faultCause (r : Raise) : (s.takeFault r).faultCause = r.cause := rfl
@[simp] theorem State.takeFault_faultInfo (r : Raise) : (s.takeFault r).faultInfo = r.info := rfl
@[simp] theorem State.takeFault_ir (r : Raise) : (s.takeFault r).ir = s.ir := rfl
@[simp] theorem State.takeFault_mar (r : Raise) : (s.takeFault r).mar = s.mar := rfl
@[simp] theorem State.takeFault_mdr (r : Raise) : (s.takeFault r).mdr = s.mdr := rfl
@[simp] theorem State.takeFault_mem (r : Raise) : (s.takeFault r).mem = s.mem := rfl
@[simp] theorem State.takeFault_out (r : Raise) : (s.takeFault r).out = s.out := rfl
@[simp] theorem State.takeFault_reports (r : Raise) : (s.takeFault r).reports = s.reports := rfl
@[simp] theorem State.takeFault_resetHeld (r : Raise) : (s.takeFault r).resetHeld = s.resetHeld := rfl

/-! ### `hostReset` and `hostRelease` -/

@[simp] theorem State.hostReset_regs : s.hostReset.regs = State.reset.regs := rfl
@[simp] theorem State.hostReset_pc : s.hostReset.pc = State.reset.pc := rfl
@[simp] theorem State.hostReset_fl : s.hostReset.fl = State.reset.fl := rfl
@[simp] theorem State.hostReset_run : s.hostReset.run = State.reset.run := rfl
@[simp] theorem State.hostReset_faultCause : s.hostReset.faultCause = State.reset.faultCause := rfl
@[simp] theorem State.hostReset_faultInfo : s.hostReset.faultInfo = State.reset.faultInfo := rfl
@[simp] theorem State.hostReset_ir : s.hostReset.ir = State.reset.ir := rfl
@[simp] theorem State.hostReset_mar : s.hostReset.mar = State.reset.mar := rfl
@[simp] theorem State.hostReset_mdr : s.hostReset.mdr = State.reset.mdr := rfl
@[simp] theorem State.hostReset_mem : s.hostReset.mem = s.mem := rfl
@[simp] theorem State.hostReset_out : s.hostReset.out = State.reset.out := rfl
@[simp] theorem State.hostReset_reports : s.hostReset.reports = State.reset.reports := rfl
@[simp] theorem State.hostReset_resetHeld : s.hostReset.resetHeld = true := rfl

@[simp] theorem State.hostRelease_regs : s.hostRelease.regs = s.regs := rfl
@[simp] theorem State.hostRelease_pc : s.hostRelease.pc = s.pc := rfl
@[simp] theorem State.hostRelease_fl : s.hostRelease.fl = s.fl := rfl
@[simp] theorem State.hostRelease_run : s.hostRelease.run = s.run := rfl
@[simp] theorem State.hostRelease_faultCause : s.hostRelease.faultCause = s.faultCause := rfl
@[simp] theorem State.hostRelease_faultInfo : s.hostRelease.faultInfo = s.faultInfo := rfl
@[simp] theorem State.hostRelease_ir : s.hostRelease.ir = s.ir := rfl
@[simp] theorem State.hostRelease_mar : s.hostRelease.mar = s.mar := rfl
@[simp] theorem State.hostRelease_mdr : s.hostRelease.mdr = s.mdr := rfl
@[simp] theorem State.hostRelease_mem : s.hostRelease.mem = s.mem := rfl
@[simp] theorem State.hostRelease_out : s.hostRelease.out = s.out := rfl
@[simp] theorem State.hostRelease_reports : s.hostRelease.reports = s.reports := rfl
@[simp] theorem State.hostRelease_resetHeld : s.hostRelease.resetHeld = false := rfl

@[simp] theorem State.hostReset_hostReset : s.hostReset.hostReset = s.hostReset := rfl

/-! ### Registers -/

@[simp] theorem State.reg_setReg_self (i : Fin Config.numRegs) (v : Byte) :
    (s.setReg i v).reg i = v := by simp [State.reg]

theorem State.reg_setReg_of_ne {i j : Fin Config.numRegs} (v : Byte) (h : i ≠ j) :
    (s.setReg i v).reg j = s.reg j := by
  have : (i : Nat) ≠ j := fun e => h (Fin.ext e)
  simp [State.reg, this]

theorem State.reg_setReg (i j : Fin Config.numRegs) (v : Byte) :
    (s.setReg i v).reg j = if i = j then v else s.reg j := by
  by_cases h : i = j
  · subst h; simp
  · simp [h, State.reg_setReg_of_ne]

@[simp] theorem State.sp_setSp (v : Byte) : (s.setSp v).sp = v := State.reg_setReg_self s _ v

/-- A register reads the same in two states with the same register file. -/
theorem State.reg_congr {s t : State} (h : s.regs = t.regs) (i : Fin Config.numRegs) :
    s.reg i = t.reg i := by simp only [State.reg, h]

end Sys2Proof.Machine
end

