-- ==== Sys2Proof/Laws/Ops.lean ====
section
/-! SUPPORT. One lemma for each shared operation: when it succeeds and with what, and when it raises.
Callers cite these and do not unfold the operation. -/

namespace Sys2Proof.Machine

/-! ### Memory interface -/

theorem inMemory_iff {a : Addr} : inMemory a = true ↔ a.toNat < Config.memSize := by
  simp [inMemory]

theorem memRead_eq_ok {a : Addr} {s : State} (h : a.toNat < Config.memSize) :
    memRead a s = .ok (s.byteAt a.toNat, s.setTrace a (s.byteAt a.toNat)) :=
  if_pos (inMemory_iff.2 h)

theorem memRead_eq_error {a : Addr} {s : State} (h : Config.memSize ≤ a.toNat) :
    memRead a s = .error (.memOob a) :=
  if_neg (by rw [inMemory_iff]; omega)

theorem memWrite_eq_ok {a : Addr} {v : Byte} {s : State} (h : a.toNat < Config.memSize) :
    memWrite a v s = .ok ((s.setTrace a v).setMem (s.mem.write a.toNat v)) :=
  if_pos (inMemory_iff.2 h)

theorem memWrite_eq_error {a : Addr} {v : Byte} {s : State} (h : Config.memSize ≤ a.toNat) :
    memWrite a v s = .error (.memOob a) :=
  if_neg (by rw [inMemory_iff]; omega)

/-- All that a read can do. -/
theorem memRead_cases {a : Addr} {s : State} :
    (a.toNat < Config.memSize ∧
      memRead a s = .ok (s.byteAt a.toNat, s.setTrace a (s.byteAt a.toNat))) ∨
    (Config.memSize ≤ a.toNat ∧ memRead a s = .error (.memOob a)) :=
  (Nat.lt_or_ge a.toNat Config.memSize).imp (fun h => ⟨h, memRead_eq_ok h⟩)
    (fun h => ⟨h, memRead_eq_error h⟩)

/-- All that a write can do. -/
theorem memWrite_cases {a : Addr} {v : Byte} {s : State} :
    (a.toNat < Config.memSize ∧
      memWrite a v s = .ok ((s.setTrace a v).setMem (s.mem.write a.toNat v))) ∨
    (Config.memSize ≤ a.toNat ∧ memWrite a v s = .error (.memOob a)) :=
  (Nat.lt_or_ge a.toNat Config.memSize).imp (fun h => ⟨h, memWrite_eq_ok h⟩)
    (fun h => ⟨h, memWrite_eq_error h⟩)

theorem State.byteAt_eq_read (s : State) (a : Nat) : s.byteAt a = s.mem.read a := rfl

/-! ### Register operands -/

theorem checkReg_eq_ok {i : Byte} (h : i.toNat < Config.numRegs) :
    checkReg i = .ok ⟨i.toNat, h⟩ := dif_pos h

theorem checkReg_eq_error {i : Byte} (h : Config.numRegs ≤ i.toNat) :
    checkReg i = .error (.regOob i) := dif_neg (by omega)

theorem regRead_eq_ok {i : Byte} {s : State} (h : i.toNat < Config.numRegs) :
    regRead i s = .ok (s.reg ⟨i.toNat, h⟩) := by rw [regRead, checkReg_eq_ok h]; rfl

theorem regRead_eq_error {i : Byte} {s : State} (h : Config.numRegs ≤ i.toNat) :
    regRead i s = .error (.regOob i) := by rw [regRead, checkReg_eq_error h]; rfl

theorem regWrite_eq_ok {i : Byte} {v : Nat} {s : State} (h : i.toNat < Config.numRegs) :
    regWrite i v s = .ok (s.setReg ⟨i.toNat, h⟩ (BitVec.ofNat 8 v)) := by
  rw [regWrite, checkReg_eq_ok h]; rfl

theorem regWrite_eq_error {i : Byte} {v : Nat} {s : State} (h : Config.numRegs ≤ i.toNat) :
    regWrite i v s = .error (.regOob i) := by rw [regWrite, checkReg_eq_error h]; rfl

/-! ### The common ALU form -/

theorem executeAlu_eq_ok {f : Byte → Byte → Nat} {ra rb : Byte} {s : State}
    (ha : ra.toNat < Config.numRegs) (hb : rb.toNat < Config.numRegs) :
    executeAlu f ra rb s =
      .ok ((s.setReg ⟨ra.toNat, ha⟩
        (BitVec.ofNat 8 (f (s.reg ⟨ra.toNat, ha⟩) (s.reg ⟨rb.toNat, hb⟩)))).autoAdvance 2) := by
  rw [executeAlu, regRead_eq_ok ha, regRead_eq_ok hb]
  simp only [bind, Except.bind, regWrite_eq_ok ha]
  rfl

theorem executeAlu_eq_error_a {f : Byte → Byte → Nat} {ra rb : Byte} {s : State}
    (ha : Config.numRegs ≤ ra.toNat) : executeAlu f ra rb s = .error (.regOob ra) := by
  rw [executeAlu, regRead_eq_error ha]; rfl

theorem executeAlu_eq_error_b {f : Byte → Byte → Nat} {ra rb : Byte} {s : State}
    (ha : ra.toNat < Config.numRegs) (hb : Config.numRegs ≤ rb.toNat) :
    executeAlu f ra rb s = .error (.regOob rb) := by
  rw [executeAlu, regRead_eq_ok ha, regRead_eq_error hb]; rfl

/-- All that the common form can do. -/
theorem executeAlu_cases {f : Byte → Byte → Nat} {ra rb : Byte} {s : State} :
    (∃ ha hb, executeAlu f ra rb s =
      .ok ((s.setReg ⟨ra.toNat, ha⟩
        (BitVec.ofNat 8 (f (s.reg ⟨ra.toNat, ha⟩) (s.reg ⟨rb.toNat, hb⟩)))).autoAdvance 2)) ∨
    (∃ i : Byte, Config.numRegs ≤ i.toNat ∧ executeAlu f ra rb s = .error (.regOob i)) := by
  rcases Nat.lt_or_ge ra.toNat Config.numRegs with ha | ha
  · rcases Nat.lt_or_ge rb.toNat Config.numRegs with hb | hb
    · exact .inl ⟨ha, hb, executeAlu_eq_ok ha hb⟩
    · exact .inr ⟨rb, hb, executeAlu_eq_error_b ha hb⟩
  · exact .inr ⟨ra, ha, executeAlu_eq_error_a ha⟩

/-! ### Jumps -/

theorem jumpTo_eq_ok {i : Byte} {s : State} (h : i.toNat < Config.numRegs) :
    jumpTo i s = .ok (s.setPc ((s.reg ⟨i.toNat, h⟩).setWidth 9)) := by
  rw [jumpTo, regRead_eq_ok h]; rfl

theorem jumpTo_eq_error {i : Byte} {s : State} (h : Config.numRegs ≤ i.toNat) :
    jumpTo i s = .error (.regOob i) := by rw [jumpTo, regRead_eq_error h]; rfl

/-! ### The stack pointer -/

theorem State.spAddr_toNat (s : State) : s.spAddr.toNat = s.sp.toNat := by
  simp only [State.spAddr, BitVec.toNat_setWidth]
  have := s.sp.isLt
  omega

@[simp] theorem State.decSp_sp (s : State) : s.decSp.sp = s.sp - 1 := State.sp_setSp s _

@[simp] theorem State.incSp_sp (s : State) : s.incSp.sp = s.sp + 1 := State.sp_setSp s _

/-! ### Ending an instruction and a step -/

@[simp] theorem finish_ok (s t : State) : finish s (.ok t) = .next t := rfl

@[simp] theorem finish_error (s : State) (r : Raise) : finish s (.error r) = .next (s.takeFault r) := rfl

/-- An instruction's rule always ends in a next state: its staged state or the taken fault. -/
theorem finish_cases {s : State} {x : Except Raise State} {o : Host.Outcome State Fault Refusal}
    (h : finish s x = o) : (∃ t, x = .ok t ∧ o = .next t) ∨ (∃ r, x = .error r ∧ o = .next (s.takeFault r)) := by
  cases x with
  | ok t => exact .inl ⟨t, rfl, h.symm⟩
  | error r => exact .inr ⟨r, rfl, h.symm⟩

theorem commit_next_of_not_faulted {s t : State} (h : t.run ≠ .faulted) :
    commit s (.next t) = .next t := if_neg h

/-- A fault taken inside an instruction is, at the end of its step, the same fault taken from the
state before the step. -/
theorem commit_takeFault (s t : State) (r : Raise) :
    commit s (.next (t.takeFault r)) = .next (s.takeFault r) := rfl

/-! ### Host moves -/

theorem State.hostLoad_eq_some {s t : State} {image : List Byte}
    (h : s.hostLoad image = some t) :
    (s.resetHeld = true ∨ s.run ≠ .running) ∧ image.length ≤ Config.memSize ∧
      t = s.setMem (s.mem.load 0 image) := by
  unfold State.hostLoad at h
  split at h
  · next hc => simp at hc h; exact ⟨hc.1, hc.2, h.symm⟩
  · cases h

end Sys2Proof.Machine
end

