-- ==== Sys2Proof/Laws/Fetch.lean ====
section
/-! SUPPORT. What a fetch does, said once: it is what the decoder answers on the bytes of memory from
the pc up. And what a step does, by the same answer. -/

namespace Sys2Proof.Machine

theorem State.bytesFrom_of_ge {s : State} {a : Nat} (h : Config.memSize ≤ a) : s.bytesFrom a = [] := by
  have : Config.memSize - a = 0 := by omega
  rw [State.bytesFrom, this]
  rfl

theorem State.bytesFrom_of_lt {s : State} {a : Nat} (h : a < Config.memSize) :
    s.bytesFrom a = s.byteAt a :: s.bytesFrom (a + 1) := by
  have : Config.memSize - a = (Config.memSize - (a + 1)) + 1 := by omega
  rw [State.bytesFrom, this, List.range'_succ, List.map_cons, State.bytesFrom]

/-! ### The decoder on the bytes at the pc -/

theorem decode_nil : decode [] = .error .noOpcode := rfl

theorem decode_unknown {b : Byte} (h : opcodeMap b = none) (rest : List Byte) :
    decode (b :: rest) = .error (.unknownOpcode b) := by simp [decode, h]

theorem decode_count_zero {b : Byte} {o : Op} (h : opcodeMap b = some o) (hn : operandCount b = 0)
    (rest : List Byte) : decode (b :: rest) = .ok (o.instr 0 0, rest) := by simp [decode, h, hn]

theorem decode_count_one {b : Byte} {o : Op} (h : opcodeMap b = some o) (hn : operandCount b = 1)
    (x : Byte) (rest : List Byte) : decode (b :: x :: rest) = .ok (o.instr x 0, rest) := by
  simp [decode, h, hn]

theorem decode_count_one_nil {b : Byte} {o : Op} (h : opcodeMap b = some o) (hn : operandCount b = 1) :
    decode [b] = .error (.missingOperand b) := by simp [decode, h, hn]

theorem decode_count_two {b : Byte} {o : Op} (h : opcodeMap b = some o) (hn : operandCount b = 2)
    (x y : Byte) (rest : List Byte) : decode (b :: x :: y :: rest) = .ok (o.instr x y, rest) := by
  simp [decode, h, hn]

theorem decode_count_two_nil {b : Byte} {o : Op} (h : opcodeMap b = some o) (hn : operandCount b = 2) :
    decode [b] = .error (.missingOperand b) := by simp [decode, h, hn]

theorem decode_count_two_one {b : Byte} {o : Op} (h : opcodeMap b = some o) (hn : operandCount b = 2)
    (x : Byte) : decode [b, x] = .error (.missingOperand b) := by simp [decode, h, hn]

/-! ### The fetch -/

/-- The state after a fetch that read `n` operand bytes, the last byte read being `v`. -/
theorem State.afterFetch_eq {s : State} {i : Instr} :
    s.afterFetch i = (s.setTrace (s.pc + BitVec.ofNat 9 i.operands.length)
      ((encode i).getLast (by simp [encode]))).setIr i.op.byte := rfl

theorem Addr.toNat_add_small {p : Addr} {k : Nat} (hp : p.toNat < Config.memSize) (hk : k ≤ 2) :
    (p + BitVec.ofNat 9 k).toNat = p.toNat + k := by
  simp only [Config.memSize] at hp
  simp only [BitVec.toNat_add, BitVec.toNat_ofNat]
  omega

/-- The address of the first missing operand is `MEM_SIZE` itself. -/
theorem Addr.add_eq_memSize {p : Addr} {k : Nat} (hp : p.toNat < Config.memSize) (hk : k ≤ 2)
    (h : p.toNat + k = Config.memSize) : p + BitVec.ofNat 9 k = BitVec.ofNat 9 Config.memSize := by
  apply BitVec.eq_of_toNat_eq
  rw [Addr.toNat_add_small hp hk, h]
  rfl

theorem fetchA_eq_ok {t : State} (h : t.pc.toNat + 1 < Config.memSize) :
    fetchA t = .ok (t.byteAt (t.pc.toNat + 1), t.setTrace (t.pc + 1) (t.byteAt (t.pc.toNat + 1))) := by
  have e : (t.pc + 1).toNat = t.pc.toNat + 1 := Addr.toNat_add_small (k := 1) (by omega) (by omega)
  rw [fetchA, memRead_eq_ok (by omega), e]

theorem fetchA_eq_error {t : State} (h : t.pc.toNat < Config.memSize)
    (h1 : Config.memSize ≤ t.pc.toNat + 1) :
    fetchA t = .error (.memOob (BitVec.ofNat 9 Config.memSize)) := by
  have e : (t.pc + 1).toNat = t.pc.toNat + 1 := Addr.toNat_add_small (k := 1) h (by omega)
  rw [fetchA, memRead_eq_error (by omega), ← Addr.add_eq_memSize (k := 1) h (by omega) (by omega)]
  rfl

theorem fetchB_eq_ok {t : State} (h : t.pc.toNat + 2 < Config.memSize) :
    fetchB t = .ok (t.byteAt (t.pc.toNat + 2), t.setTrace (t.pc + 2) (t.byteAt (t.pc.toNat + 2))) := by
  have e : (t.pc + 2).toNat = t.pc.toNat + 2 := Addr.toNat_add_small (k := 2) (by omega) (by omega)
  rw [fetchB, memRead_eq_ok (by omega), e]

theorem fetchB_eq_error {t : State} (h : t.pc.toNat + 1 < Config.memSize)
    (h1 : Config.memSize ≤ t.pc.toNat + 2) :
    fetchB t = .error (.memOob (BitVec.ofNat 9 Config.memSize)) := by
  have e : (t.pc + 2).toNat = t.pc.toNat + 2 := Addr.toNat_add_small (k := 2) (by omega) (by omega)
  rw [fetchB, memRead_eq_error (by omega),
    ← Addr.add_eq_memSize (p := t.pc) (k := 2) (by omega) (by omega) (by omega)]
  rfl

theorem fetchOpcode_eq_ok {s : State} (h : s.pc.toNat < Config.memSize) :
    fetchOpcode s = .ok (s.byteAt s.pc.toNat,
      (s.setTrace s.pc (s.byteAt s.pc.toNat)).setIr (s.byteAt s.pc.toNat)) := by
  rw [fetchOpcode, memRead_eq_ok h]; rfl

theorem fetchOpcode_eq_error {s : State} (h : Config.memSize ≤ s.pc.toNat) :
    fetchOpcode s = .error (.memOob s.pc) := by rw [fetchOpcode, memRead_eq_error h]; rfl

/-- The state after the fetch of an instruction whose operation and bytes are known. -/
theorem State.afterFetch_instr (s : State) (o : Op) (x y : Byte) :
    s.afterFetch (o.instr x y) =
      (s.setTrace (s.pc + BitVec.ofNat 9 (operandCount o.byte))
        ((o.byte :: [x, y].take (operandCount o.byte)).getLast (by simp))).setIr o.byte := by
  have hn := Laws.operandCount_le_two o
  have hl : ([x, y].take (operandCount o.byte)).length = operandCount o.byte := by simp; omega
  simp only [State.afterFetch, encode, Laws.instr_op, Laws.instr_operands, hl]
  rfl

/-- A fetch is determined by the decoder's answer on the bytes from the pc up. -/
theorem fetch_eq (s : State) :
    fetch s = match decode (s.bytesFrom s.pc.toNat) with
      | .ok (i, _) => .ok (.instr i, s.afterFetch i)
      | .error .noOpcode => .error (.memOob s.pc)
      | .error (.unknownOpcode b) => .ok (.unknown b, (s.setTrace s.pc b).setIr b)
      | .error (.missingOperand _) => .error (.memOob (BitVec.ofNat 9 Config.memSize)) := by
  rcases Nat.lt_or_ge s.pc.toNat Config.memSize with h | h
  · rw [State.bytesFrom_of_lt h]
    simp only [fetch, fetchOpcode_eq_ok h, bind, Except.bind, pure, Except.pure]
    generalize s.byteAt s.pc.toNat = b
    rcases ho : opcodeMap b with _ | o
    · rw [decode_unknown ho]
    · have hbo := Laws.byte_of_opcodeMap ho
      have hn : operandCount b ≤ 2 := hbo ▸ Laws.operandCount_le_two o
      have haf := State.afterFetch_instr s o
      rw [hbo] at haf
      generalize ht : (s.setTrace s.pc b).setIr b = t
      have hpc : t.pc = s.pc := by rw [← ht]; rfl
      have hby : t.byteAt = s.byteAt := by rw [← ht]; rfl
      rcases hk : operandCount b with _ | _ | _ | n
      · rw [decode_count_zero ho hk]
        simp only [haf, hk]
        rw [← ht]
        simp
      · rcases Nat.lt_or_ge (s.pc.toNat + 1) Config.memSize with h1 | h1
        · rw [State.bytesFrom_of_lt h1, decode_count_one ho hk]
          simp only [haf, hk, fetchA_eq_ok (t := t) (by rwa [hpc]), hpc, hby]
          rw [← ht]
          rfl
        · rw [State.bytesFrom_of_ge h1, decode_count_one_nil ho hk]
          simp only [fetchA_eq_error (t := t) (by rwa [hpc]) (by rwa [hpc])]
      · rcases Nat.lt_or_ge (s.pc.toNat + 1) Config.memSize with h1 | h1
        · rw [State.bytesFrom_of_lt h1]
          simp only [fetchA_eq_ok (t := t) (by rwa [hpc])]
          rcases Nat.lt_or_ge (s.pc.toNat + 1 + 1) Config.memSize with h2 | h2
          · rw [State.bytesFrom_of_lt h2, decode_count_two ho hk, fetchB_eq_ok (by simpa [hpc] using h2)]
            simp only [haf, hk, State.setTrace_pc, hpc]
            rw [← ht]
            rfl
          · rw [State.bytesFrom_of_ge h2, decode_count_two_one ho hk,
              fetchB_eq_error (by simpa [hpc] using h1) (by simpa [hpc] using h2)]
        · rw [State.bytesFrom_of_ge h1, decode_count_two_nil ho hk]
          simp only [fetchA_eq_error (t := t) (by rwa [hpc]) (by rwa [hpc])]
      · omega
  · rw [State.bytesFrom_of_ge h]
    simp only [fetch, fetchOpcode_eq_error h]
    rfl

/-! ### The instruction at the pc -/

/-- One instruction stands at the pc. -/
theorem State.AtPc.unique {s : State} {i j : Instr} (h : s.AtPc i) (h' : s.AtPc j) : i = j := by
  obtain ⟨r, h⟩ := h
  obtain ⟨r', h'⟩ := h'
  rw [h] at h'
  injection h' with h'
  exact congrArg Prod.fst h'

/-- Its opcode byte is the byte at the pc. -/
theorem State.AtPc.opcode {s : State} {i : Instr} (h : s.AtPc i) :
    s.pc.toNat < Config.memSize ∧ opcodeMap (s.byteAt s.pc.toNat) = some i.op := by
  obtain ⟨r, h⟩ := h
  rcases Nat.lt_or_ge s.pc.toNat Config.memSize with hl | hl
  · refine ⟨hl, ?_⟩
    rw [State.bytesFrom_of_lt hl, decode] at h
    split at h
    · cases h
    · next o ho =>
      rw [ho]
      split at h <;> first | cases h; rw [Laws.instr_op] | cases h
  · rw [State.bytesFrom_of_ge hl] at h
    cases h

/-- All its bytes are in memory. -/
theorem State.AtPc.fits {s : State} {i : Instr} (h : s.AtPc i) :
    s.pc.toNat + i.operands.length < Config.memSize := by
  have ⟨hl, hm⟩ := h.opcode
  have hc := Laws.operandCount_byte i
  have hb := Laws.byte_of_opcodeMap hm
  have h2 := Laws.operandCount_le_two i.op
  obtain ⟨r, h⟩ := h
  rw [State.bytesFrom_of_lt hl] at h
  rcases hk : operandCount i.op.byte with _ | _ | _ | n
  · omega
  · rcases Nat.lt_or_ge (s.pc.toNat + 1) Config.memSize with h1 | h1
    · omega
    · rw [State.bytesFrom_of_ge h1, decode_count_one_nil hm (hb ▸ hk)] at h
      cases h
  · rcases Nat.lt_or_ge (s.pc.toNat + 1) Config.memSize with h1 | h1
    · rw [State.bytesFrom_of_lt h1] at h
      rcases Nat.lt_or_ge (s.pc.toNat + 1 + 1) Config.memSize with h3 | h3
      · omega
      · rw [State.bytesFrom_of_ge h3, decode_count_two_one hm (hb ▸ hk)] at h
        cases h
    · rw [State.bytesFrom_of_ge h1, decode_count_two_nil hm (hb ▸ hk)] at h
      cases h
  · omega

/-- Where the decoder finds an unrecognised opcode, it is the byte at the pc. -/
theorem unknownOpcode_at {s : State} {b : Byte}
    (h : decode (s.bytesFrom s.pc.toNat) = .error (.unknownOpcode b)) :
    s.pc.toNat < Config.memSize ∧ s.byteAt s.pc.toNat = b ∧ opcodeMap b = none := by
  rcases Nat.lt_or_ge s.pc.toNat Config.memSize with hl | hl
  · rw [State.bytesFrom_of_lt hl, decode] at h
    split at h
    · next ho =>
      injection h with h
      injection h with h
      exact ⟨hl, h, h ▸ ho⟩
    · split at h <;> cases h
  · rw [State.bytesFrom_of_ge hl] at h
    cases h

/-- Where the decoder finds an operand missing, a recognised opcode stands at the pc and its operands
do not fit. -/
theorem missingOperand_at {s : State} {b : Byte}
    (h : decode (s.bytesFrom s.pc.toNat) = .error (.missingOperand b)) :
    s.pc.toNat < Config.memSize ∧ s.byteAt s.pc.toNat = b ∧ ∃ o, opcodeMap b = some o ∧
      Config.memSize ≤ s.pc.toNat + operandCount o.byte := by
  rcases Nat.lt_or_ge s.pc.toNat Config.memSize with hl | hl
  · rw [State.bytesFrom_of_lt hl] at h
    generalize hb : s.byteAt s.pc.toNat = c at h
    cases ho : opcodeMap c with
    | none => rw [decode_unknown ho] at h; cases h
    | some o =>
      have hbo := Laws.byte_of_opcodeMap ho
      have hc : c = b := by
        simp only [decode, ho] at h
        split at h <;> first | cases h; rfl | cases h
      refine ⟨hl, hc, o, hc ▸ ho, ?_⟩
      rw [hbo]
      rcases Nat.lt_or_ge (s.pc.toNat + operandCount c) Config.memSize with hf | hf
      · exfalso
        have h2 := Laws.operandCount_le_two o
        rw [hbo] at h2
        rcases hk : operandCount c with _ | _ | _ | n
        · rw [decode_count_zero ho hk] at h; cases h
        · rw [State.bytesFrom_of_lt (by omega), decode_count_one ho hk] at h; cases h
        · rw [State.bytesFrom_of_lt (by omega), State.bytesFrom_of_lt (by omega),
            decode_count_two ho hk] at h
          cases h
        · omega
      · exact hf
  · rw [State.bytesFrom_of_ge hl] at h
    cases h

/-! ### The step -/

theorem step_of_not_active {s : State} (h : ¬ s.Active) : step s = .next s := by
  unfold step
  split
  · rfl
  · next hh =>
    split
    · next e => exact absurd ⟨e, by simpa using hh⟩ h
    · rfl
    · rfl

/-- All that a step can do where the CORE makes one, by what stands at the pc. -/
theorem step_of_active {s : State} (h : s.Active) :
    step s = match decode (s.bytesFrom s.pc.toNat) with
      | .ok (i, _) => commit s (exec i (s.afterFetch i))
      | .error .noOpcode => .next (s.takeFault (.memOob s.pc))
      | .error (.unknownOpcode b) => .next (skipUnknown b ((s.setTrace s.pc b).setIr b))
      | .error (.missingOperand _) =>
        .next (s.takeFault (.memOob (BitVec.ofNat 9 Config.memSize))) := by
  simp only [step, h.1, h.2, fetch_eq, Bool.false_eq_true, if_false]
  rcases decode (s.bytesFrom s.pc.toNat) with (_ | _ | _) | ⟨i, rest⟩ <;> rfl

end Sys2Proof.Machine
end

