-- ==== Sys2Proof/Laws/Exec.lean ====
section
/-! SUPPORT. What `exec` can do, said once: an instruction completes in one way (`Completes`) or raises
one fault (`Raises`), and `exec_cases` says that these are all. Frames, invariants and whole-machine
facts come from a case split on these two relations, with no meaning unfolded. -/

namespace Sys2Proof.Machine

/-- The state a two-operand ALU instruction ends in. -/
def State.aluResult (s : State) (f : Byte → Byte → Nat) (ra rb : Byte)
    (ha : ra.toNat < Config.numRegs) (hb : rb.toNat < Config.numRegs) : State :=
  (s.setReg ⟨ra.toNat, ha⟩
    (BitVec.ofNat 8 (f (s.reg ⟨ra.toNat, ha⟩) (s.reg ⟨rb.toNat, hb⟩)))).autoAdvance 2

/-- `Completes s i t`: on state `s`, instruction `i` ends without a raise in state `t`. -/
inductive Completes (s : State) : Instr → State → Prop where
  | hlt : Completes s .hlt (s.setRun .halted)
  | ldi (ra imm : Byte) (h : ra.toNat < Config.numRegs) :
    Completes s (.ldi ra imm) ((s.setReg ⟨ra.toNat, h⟩ imm).autoAdvance 2)
  | prn (ra : Byte) (h : ra.toNat < Config.numRegs) :
    Completes s (.prn ra) ((s.emit (s.reg ⟨ra.toNat, h⟩)).autoAdvance 1)
  | add (ra rb : Byte) (ha : ra.toNat < Config.numRegs) (hb : rb.toNat < Config.numRegs) :
    Completes s (.add ra rb) (s.aluResult aluAdd ra rb ha hb)
  | mul (ra rb : Byte) (ha : ra.toNat < Config.numRegs) (hb : rb.toNat < Config.numRegs) :
    Completes s (.mul ra rb) (s.aluResult aluMul ra rb ha hb)
  | and (ra rb : Byte) (ha : ra.toNat < Config.numRegs) (hb : rb.toNat < Config.numRegs) :
    Completes s (.and ra rb) (s.aluResult aluAnd ra rb ha hb)
  | or (ra rb : Byte) (ha : ra.toNat < Config.numRegs) (hb : rb.toNat < Config.numRegs) :
    Completes s (.or ra rb) (s.aluResult aluOr ra rb ha hb)
  | xor (ra rb : Byte) (ha : ra.toNat < Config.numRegs) (hb : rb.toNat < Config.numRegs) :
    Completes s (.xor ra rb) (s.aluResult aluXor ra rb ha hb)
  | shl (ra rb : Byte) (ha : ra.toNat < Config.numRegs) (hb : rb.toNat < Config.numRegs) :
    Completes s (.shl ra rb) (s.aluResult aluShl ra rb ha hb)
  | shr (ra rb : Byte) (ha : ra.toNat < Config.numRegs) (hb : rb.toNat < Config.numRegs) :
    Completes s (.shr ra rb) (s.aluResult aluShr ra rb ha hb)
  | mod (ra rb : Byte) (ha : ra.toNat < Config.numRegs) (hb : rb.toNat < Config.numRegs)
    (hz : s.reg ⟨rb.toNat, hb⟩ ≠ 0) :
    Completes s (.mod ra rb) (s.aluResult aluMod ra rb ha hb)
  | cmp (ra rb : Byte) (ha : ra.toNat < Config.numRegs) (hb : rb.toNat < Config.numRegs) :
    Completes s (.cmp ra rb)
      ((s.setFl (compareFlags (s.reg ⟨ra.toNat, ha⟩) (s.reg ⟨rb.toNat, hb⟩))).autoAdvance 2)
  | not (ra : Byte) (h : ra.toNat < Config.numRegs) :
    Completes s (.not ra) ((s.setReg ⟨ra.toNat, h⟩
      (BitVec.ofNat 8 (aluNot (s.reg ⟨ra.toNat, h⟩)))).autoAdvance 1)
  | push (ra : Byte) (h : ra.toNat < Config.numRegs) (ha : s.decSp.spAddr.toNat < Config.memSize) :
    Completes s (.push ra)
      (((s.decSp.setTrace s.decSp.spAddr (s.decSp.reg ⟨ra.toNat, h⟩)).setMem
        (s.mem.write s.decSp.spAddr.toNat (s.decSp.reg ⟨ra.toNat, h⟩))).autoAdvance 1)
  | pop (ra : Byte) (h : ra.toNat < Config.numRegs) (ha : s.spAddr.toNat < Config.memSize) :
    Completes s (.pop ra)
      ((((s.setTrace s.spAddr (s.byteAt s.spAddr.toNat)).setReg ⟨ra.toNat, h⟩
        (s.byteAt s.spAddr.toNat)).incSp).autoAdvance 1)
  | jmp (ra : Byte) (h : ra.toNat < Config.numRegs) :
    Completes s (.jmp ra) (s.setPc ((s.reg ⟨ra.toNat, h⟩).setWidth 9))
  | jeqTaken (ra : Byte) (he : s.fl.e = true) (h : ra.toNat < Config.numRegs) :
    Completes s (.jeq ra) (s.setPc ((s.reg ⟨ra.toNat, h⟩).setWidth 9))
  | jeqPast (ra : Byte) (he : s.fl.e = false) : Completes s (.jeq ra) (s.setPc (s.pc + 2))
  | jneTaken (ra : Byte) (he : s.fl.e = false) (h : ra.toNat < Config.numRegs) :
    Completes s (.jne ra) (s.setPc ((s.reg ⟨ra.toNat, h⟩).setWidth 9))
  | jnePast (ra : Byte) (he : s.fl.e = true) : Completes s (.jne ra) (s.setPc (s.pc + 2))
  | call (ra : Byte) (h : ra.toNat < Config.numRegs) (ha : s.decSp.spAddr.toNat < Config.memSize) :
    Completes s (.call ra)
      (((s.decSp.setTrace s.decSp.spAddr (returnByte s)).setMem
        (s.mem.write s.decSp.spAddr.toNat (returnByte s))).setPc
          ((s.decSp.reg ⟨ra.toNat, h⟩).setWidth 9))
  | ret (ha : s.spAddr.toNat < Config.memSize) :
    Completes s .ret
      (((s.setTrace s.spAddr (s.byteAt s.spAddr.toNat)).incSp).setPc
        ((s.byteAt s.spAddr.toNat).setWidth 9))

/-- `Raises s i r`: on state `s`, instruction `i` raises `r`. -/
inductive Raises (s : State) : Instr → Raise → Prop where
  | index (i : Instr) (r : Byte) (hr : Config.numRegs ≤ r.toNat)
    (h : ((i.accessed s.fl.e).find? fun r => !validIndex r) = some r) : Raises s i (.regOob r)
  | divisor (ra rb : Byte) (ha : ra.toNat < Config.numRegs) (hb : rb.toNat < Config.numRegs)
    (hz : s.reg ⟨rb.toNat, hb⟩ = 0) : Raises s (.mod ra rb) (.divZero rb)
  | push (ra : Byte) (h : ra.toNat < Config.numRegs) (ha : Config.memSize ≤ s.decSp.spAddr.toNat) :
    Raises s (.push ra) (.memOob s.decSp.spAddr)
  | call (ra : Byte) (h : ra.toNat < Config.numRegs) (ha : Config.memSize ≤ s.decSp.spAddr.toNat) :
    Raises s (.call ra) (.memOob s.decSp.spAddr)
  | pop (ra : Byte) (h : ra.toNat < Config.numRegs) (ha : Config.memSize ≤ s.spAddr.toNat) :
    Raises s (.pop ra) (.memOob s.spAddr)
  | ret (ha : Config.memSize ≤ s.spAddr.toNat) : Raises s .ret (.memOob s.spAddr)

theorem validIndex_iff {r : Byte} : validIndex r = true ↔ r.toNat < Config.numRegs := by
  simp [validIndex]

theorem not_validIndex {r : Byte} (h : Config.numRegs ≤ r.toNat) : validIndex r = false := by
  rw [← Bool.not_eq_true, validIndex_iff]; omega

theorem find_invalid_of_bad {a : Byte} {l : List Byte} (h : Config.numRegs ≤ a.toNat) :
    ((a :: l).find? fun r => !validIndex r) = some a := by simp [not_validIndex h]

theorem find_invalid_of_good {a : Byte} {l : List Byte} (h : a.toNat < Config.numRegs) :
    ((a :: l).find? fun r => !validIndex r) = l.find? fun r => !validIndex r := by
  simp [validIndex_iff.2 h]

/-- An instruction whose form is `ExecuteALU` completes or raises at an index. -/
theorem executeAlu_does {s : State} {i : Instr} {ra rb : Byte} {f : Byte → Byte → Nat}
    (hx : exec i s = finish s (executeAlu f ra rb s)) (hacc : i.accessed s.fl.e = [ra, rb])
    (hc : ∀ (ha : ra.toNat < Config.numRegs) (hb : rb.toNat < Config.numRegs),
      Completes s i (s.aluResult f ra rb ha hb)) :
    (∃ t, Completes s i t ∧ exec i s = .next t) ∨
    (∃ r, Raises s i r ∧ exec i s = .next (s.takeFault r)) := by
  rcases Nat.lt_or_ge ra.toNat Config.numRegs with ha | ha
  · rcases Nat.lt_or_ge rb.toNat Config.numRegs with hb | hb
    · exact .inl ⟨_, hc ha hb, by rw [hx, executeAlu_eq_ok ha hb]; rfl⟩
    · exact .inr ⟨_, .index i rb hb (by rw [hacc, find_invalid_of_good ha, find_invalid_of_bad hb]),
        by rw [hx, executeAlu_eq_error_b ha hb]; rfl⟩
  · exact .inr ⟨_, .index i ra ha (by rw [hacc, find_invalid_of_bad ha]),
      by rw [hx, executeAlu_eq_error_a ha]; rfl⟩

/-- An instruction that first checks one index raises there or goes on with a register. -/
theorem oneIndex_does {s : State} {i : Instr} {ra : Byte} (hacc : i.accessed s.fl.e = [ra])
    (hbad : Config.numRegs ≤ ra.toNat → exec i s = .next (s.takeFault (.regOob ra)))
    (hok : ra.toNat < Config.numRegs → (∃ t, Completes s i t ∧ exec i s = .next t) ∨
      (∃ r, Raises s i r ∧ exec i s = .next (s.takeFault r))) :
    (∃ t, Completes s i t ∧ exec i s = .next t) ∨
    (∃ r, Raises s i r ∧ exec i s = .next (s.takeFault r)) := by
  rcases Nat.lt_or_ge ra.toNat Config.numRegs with ha | ha
  · exact hok ha
  · exact .inr ⟨_, .index i ra ha (by rw [hacc, find_invalid_of_bad ha]), hbad ha⟩

/-- All that an instruction can do. -/
theorem exec_cases (i : Instr) (s : State) :
    (∃ t, Completes s i t ∧ exec i s = .next t) ∨
    (∃ r, Raises s i r ∧ exec i s = .next (s.takeFault r)) := by
  cases i with
  | hlt => exact .inl ⟨_, .hlt, rfl⟩
  | ldi ra imm =>
    refine oneIndex_does (ra := ra) rfl (fun h => ?_) fun h => .inl ⟨_, .ldi ra imm h, ?_⟩
    · simp only [exec, execLdi, regWrite_eq_error h]; rfl
    · simp only [exec, execLdi, regWrite_eq_ok h, BitVec.ofNat_toNat, BitVec.setWidth_eq]; rfl
  | prn ra =>
    refine oneIndex_does (ra := ra) rfl (fun h => ?_) fun h => .inl ⟨_, .prn ra h, ?_⟩
    · simp only [exec, execPrn, regRead_eq_error h]; rfl
    · simp only [exec, execPrn, regRead_eq_ok h]; rfl
  | add ra rb => exact executeAlu_does rfl rfl (Completes.add ra rb)
  | mul ra rb => exact executeAlu_does rfl rfl (Completes.mul ra rb)
  | and ra rb => exact executeAlu_does rfl rfl (Completes.and ra rb)
  | or ra rb => exact executeAlu_does rfl rfl (Completes.or ra rb)
  | xor ra rb => exact executeAlu_does rfl rfl (Completes.xor ra rb)
  | shl ra rb => exact executeAlu_does rfl rfl (Completes.shl ra rb)
  | shr ra rb => exact executeAlu_does rfl rfl (Completes.shr ra rb)
  | mod ra rb =>
    rcases Nat.lt_or_ge ra.toNat Config.numRegs with ha | ha
    · rcases Nat.lt_or_ge rb.toNat Config.numRegs with hb | hb
      · by_cases hz : s.reg ⟨rb.toNat, hb⟩ = 0
        · refine .inr ⟨_, .divisor ra rb ha hb hz, ?_⟩
          simp only [exec, execMod, regRead_eq_ok ha, regRead_eq_ok hb, bind, Except.bind, if_pos hz]
          rfl
        · refine .inl ⟨_, .mod ra rb ha hb hz, ?_⟩
          simp only [exec, execMod, regRead_eq_ok ha, regRead_eq_ok hb, bind, Except.bind, if_neg hz,
            executeAlu_eq_ok ha hb]
          rfl
      · refine .inr ⟨_, .index _ rb hb (by
          rw [show (Instr.mod ra rb).accessed s.fl.e = [ra, rb] from rfl, find_invalid_of_good ha,
            find_invalid_of_bad hb]), ?_⟩
        simp only [exec, execMod, regRead_eq_ok ha, regRead_eq_error hb]; rfl
    · refine .inr ⟨_, .index _ ra ha (by
        rw [show (Instr.mod ra rb).accessed s.fl.e = [ra, rb] from rfl, find_invalid_of_bad ha]), ?_⟩
      simp only [exec, execMod, regRead_eq_error ha]; rfl
  | cmp ra rb =>
    rcases Nat.lt_or_ge ra.toNat Config.numRegs with ha | ha
    · rcases Nat.lt_or_ge rb.toNat Config.numRegs with hb | hb
      · refine .inl ⟨_, .cmp ra rb ha hb, ?_⟩
        simp only [exec, execCmp, regRead_eq_ok ha, regRead_eq_ok hb]; rfl
      · refine .inr ⟨_, .index _ rb hb (by
          rw [show (Instr.cmp ra rb).accessed s.fl.e = [ra, rb] from rfl, find_invalid_of_good ha,
            find_invalid_of_bad hb]), ?_⟩
        simp only [exec, execCmp, regRead_eq_ok ha, regRead_eq_error hb]; rfl
    · refine .inr ⟨_, .index _ ra ha (by
        rw [show (Instr.cmp ra rb).accessed s.fl.e = [ra, rb] from rfl, find_invalid_of_bad ha]), ?_⟩
      simp only [exec, execCmp, regRead_eq_error ha]; rfl
  | not ra =>
    refine oneIndex_does (ra := ra) rfl (fun h => ?_) fun h => .inl ⟨_, .not ra h, ?_⟩
    · simp only [exec, execNot, regRead_eq_error h]; rfl
    · simp only [exec, execNot, regRead_eq_ok h, bind, Except.bind, regWrite_eq_ok h]; rfl
  | push ra =>
    refine oneIndex_does (ra := ra) rfl (fun h => ?_) fun h => ?_
    · simp only [exec, execPush, checkReg_eq_error h]; rfl
    · rcases memWrite_cases (a := s.decSp.spAddr) (v := s.decSp.reg ⟨ra.toNat, h⟩) (s := s.decSp)
        with ⟨ha, e⟩ | ⟨ha, e⟩
      · exact .inl ⟨_, .push ra h ha, by
          simp only [exec, execPush, checkReg_eq_ok h, bind, Except.bind, e]; rfl⟩
      · exact .inr ⟨_, .push ra h ha, by
          simp only [exec, execPush, checkReg_eq_ok h, bind, Except.bind, e]; rfl⟩
  | pop ra =>
    refine oneIndex_does (ra := ra) rfl (fun h => ?_) fun h => ?_
    · simp only [exec, execPop, checkReg_eq_error h]; rfl
    · rcases memRead_cases (a := s.spAddr) (s := s) with ⟨ha, e⟩ | ⟨ha, e⟩
      · exact .inl ⟨_, .pop ra h ha, by
          simp only [exec, execPop, checkReg_eq_ok h, bind, Except.bind, e]; rfl⟩
      · exact .inr ⟨_, .pop ra h ha, by
          simp only [exec, execPop, checkReg_eq_ok h, bind, Except.bind, e]; rfl⟩
  | jmp ra =>
    refine oneIndex_does (ra := ra) rfl (fun h => ?_) fun h => .inl ⟨_, .jmp ra h, ?_⟩
    · simp only [exec, execJmp, jumpTo_eq_error h]; rfl
    · simp only [exec, execJmp, jumpTo_eq_ok h]; rfl
  | jeq ra =>
    cases he : s.fl.e
    · exact .inl ⟨_, .jeqPast ra he, by simp only [exec, execJeq, State.equalFlag, he]; rfl⟩
    · refine oneIndex_does (ra := ra) (by simp [Instr.accessed, he]) (fun h => ?_)
        fun h => .inl ⟨_, .jeqTaken ra he h, ?_⟩
      · simp only [exec, execJeq, State.equalFlag, he, jumpTo_eq_error h]; rfl
      · simp only [exec, execJeq, State.equalFlag, he, jumpTo_eq_ok h]; rfl
  | jne ra =>
    cases he : s.fl.e
    · refine oneIndex_does (ra := ra) (by simp [Instr.accessed, he]) (fun h => ?_)
        fun h => .inl ⟨_, .jneTaken ra he h, ?_⟩
      · simp only [exec, execJne, State.equalFlag, he, jumpTo_eq_error h]; rfl
      · simp only [exec, execJne, State.equalFlag, he, jumpTo_eq_ok h]; rfl
    · exact .inl ⟨_, .jnePast ra he, by simp only [exec, execJne, State.equalFlag, he]; rfl⟩
  | call ra =>
    refine oneIndex_does (ra := ra) rfl (fun h => ?_) fun h => ?_
    · simp only [exec, execCall, checkReg_eq_error h]; rfl
    · rcases memWrite_cases (a := s.decSp.spAddr) (v := returnByte s) (s := s.decSp)
        with ⟨ha, e⟩ | ⟨ha, e⟩
      · exact .inl ⟨_, .call ra h ha, by
          simp only [exec, execCall, checkReg_eq_ok h, bind, Except.bind, e]; rfl⟩
      · exact .inr ⟨_, .call ra h ha, by
          simp only [exec, execCall, checkReg_eq_ok h, bind, Except.bind, e]; rfl⟩
  | ret =>
    rcases memRead_cases (a := s.spAddr) (s := s) with ⟨ha, e⟩ | ⟨ha, e⟩
    · exact .inl ⟨_, .ret ha, by simp only [exec, execRet, bind, Except.bind, e]; rfl⟩
    · exact .inr ⟨_, .ret ha, by simp only [exec, execRet, bind, Except.bind, e]; rfl⟩

/-- No instruction stops. -/
theorem exec_next (i : Instr) (s : State) : ∃ t, exec i s = .next t := by
  rcases exec_cases i s with ⟨t, -, h⟩ | ⟨r, -, h⟩
  · exact ⟨t, h⟩
  · exact ⟨_, h⟩

/-- A completed instruction is in `Faulted` only if it was before. -/
theorem Completes.run_eq {s t : State} {i : Instr} (h : Completes s i t) :
    t.run = s.run ∨ (i = .hlt ∧ t.run = .halted) := by
  cases h <;> simp [State.aluResult, State.autoAdvance, State.decSp, State.incSp, State.setSp]

/-- All that a step can do where the CORE makes one. -/
theorem step_cases {s : State} (hr : s.Active) :
    (∃ i t, s.AtPc i ∧ Completes (s.afterFetch i) i t ∧ t.run ≠ .faulted ∧ step s = .next t) ∨
    (∃ i r, s.AtPc i ∧ Raises (s.afterFetch i) i r ∧ step s = .next (s.takeFault r)) ∨
    (∃ b, decode (s.bytesFrom s.pc.toNat) = .error (.unknownOpcode b) ∧
      step s = .next (skipUnknown b ((s.setTrace s.pc b).setIr b))) ∨
    (Config.memSize ≤ s.pc.toNat ∧ step s = .next (s.takeFault (.memOob s.pc))) ∨
    (∃ b, decode (s.bytesFrom s.pc.toNat) = .error (.missingOperand b) ∧
      step s = .next (s.takeFault (.memOob (BitVec.ofNat 9 Config.memSize)))) := by
  have hs := step_of_active hr
  cases hd : decode (s.bytesFrom s.pc.toNat) with
  | ok p =>
    obtain ⟨i, rest⟩ := p
    simp only [hd] at hs
    rcases exec_cases i (s.afterFetch i) with ⟨t, hc, he⟩ | ⟨r, hc, he⟩
    · have hf : t.run ≠ .faulted := by
        rcases hc.run_eq with e | ⟨-, e⟩ <;> rw [e]
        · rw [show (s.afterFetch i).run = s.run from rfl, hr.1]; decide
        · decide
      exact .inl ⟨i, t, ⟨rest, hd⟩, hc, hf, by rw [hs, he, commit_next_of_not_faulted hf]⟩
    · exact .inr (.inl ⟨i, r, ⟨rest, hd⟩, hc, by rw [hs, he, commit_takeFault]⟩)
  | error e =>
    simp only [hd] at hs
    cases e with
    | noOpcode =>
      refine .inr (.inr (.inr (.inl ⟨?_, hs⟩)))
      rcases Nat.lt_or_ge s.pc.toNat Config.memSize with h | h
      · rw [State.bytesFrom_of_lt h, decode] at hd
        split at hd
        · cases hd
        · split at hd <;> cases hd
      · exact h
    | unknownOpcode b => exact .inr (.inr (.inl ⟨b, rfl, hs⟩))
    | missingOperand b => exact .inr (.inr (.inr (.inr ⟨b, rfl, hs⟩)))

end Sys2Proof.Machine
end

