-- ==== Sys2Proof/Laws/PerInstr.lean ====
section
/-! SUPPORT. Facts about every instruction as syntax, one lemma for each constructor.

`EncodedLength`: an instruction's encoding is its opcode byte and as many bytes as bits 7:6 of that
byte say (spec/30_encoding.md R60, R61, R71), and its register operands are among its operand bytes. -/

namespace Sys2Proof.Laws.EncodedLength

/-- The encoding's length is `1 + n` with `n` read from its first byte, and `n` is at most 2. -/
def Statement (i : Instr) : Prop :=
  (encode i).length = 1 + operandCount i.op.byte ∧ operandCount i.op.byte ≤ 2 ∧
    ∀ r ∈ i.registerOperands, r ∈ i.operands

theorem hlt : Statement .hlt := ⟨by simp [encode, Instr.operands, Instr.op]; decide, by simp only [Instr.op]; decide, by simp [Instr.registerOperands]⟩
theorem ldi (ra imm : Byte) : Statement (.ldi ra imm) :=
  ⟨by simp [encode, Instr.operands, Instr.op]; decide, by simp only [Instr.op]; decide, by simp [Instr.registerOperands, Instr.operands]⟩
theorem prn (ra : Byte) : Statement (.prn ra) :=
  ⟨by simp [encode, Instr.operands, Instr.op]; decide, by simp only [Instr.op]; decide, by simp [Instr.registerOperands, Instr.operands]⟩
theorem add (ra rb : Byte) : Statement (.add ra rb) := ⟨by simp [encode, Instr.operands, Instr.op]; decide, by simp only [Instr.op]; decide, fun _ h => h⟩
theorem mul (ra rb : Byte) : Statement (.mul ra rb) := ⟨by simp [encode, Instr.operands, Instr.op]; decide, by simp only [Instr.op]; decide, fun _ h => h⟩
theorem mod (ra rb : Byte) : Statement (.mod ra rb) := ⟨by simp [encode, Instr.operands, Instr.op]; decide, by simp only [Instr.op]; decide, fun _ h => h⟩
theorem cmp (ra rb : Byte) : Statement (.cmp ra rb) := ⟨by simp [encode, Instr.operands, Instr.op]; decide, by simp only [Instr.op]; decide, fun _ h => h⟩
theorem and (ra rb : Byte) : Statement (.and ra rb) := ⟨by simp [encode, Instr.operands, Instr.op]; decide, by simp only [Instr.op]; decide, fun _ h => h⟩
theorem or (ra rb : Byte) : Statement (.or ra rb) := ⟨by simp [encode, Instr.operands, Instr.op]; decide, by simp only [Instr.op]; decide, fun _ h => h⟩
theorem xor (ra rb : Byte) : Statement (.xor ra rb) := ⟨by simp [encode, Instr.operands, Instr.op]; decide, by simp only [Instr.op]; decide, fun _ h => h⟩
theorem not (ra : Byte) : Statement (.not ra) := ⟨by simp [encode, Instr.operands, Instr.op]; decide, by simp only [Instr.op]; decide, fun _ h => h⟩
theorem shl (ra rb : Byte) : Statement (.shl ra rb) := ⟨by simp [encode, Instr.operands, Instr.op]; decide, by simp only [Instr.op]; decide, fun _ h => h⟩
theorem shr (ra rb : Byte) : Statement (.shr ra rb) := ⟨by simp [encode, Instr.operands, Instr.op]; decide, by simp only [Instr.op]; decide, fun _ h => h⟩
theorem push (ra : Byte) : Statement (.push ra) := ⟨by simp [encode, Instr.operands, Instr.op]; decide, by simp only [Instr.op]; decide, fun _ h => h⟩
theorem pop (ra : Byte) : Statement (.pop ra) := ⟨by simp [encode, Instr.operands, Instr.op]; decide, by simp only [Instr.op]; decide, fun _ h => h⟩
theorem jmp (ra : Byte) : Statement (.jmp ra) := ⟨by simp [encode, Instr.operands, Instr.op]; decide, by simp only [Instr.op]; decide, fun _ h => h⟩
theorem jeq (ra : Byte) : Statement (.jeq ra) := ⟨by simp [encode, Instr.operands, Instr.op]; decide, by simp only [Instr.op]; decide, fun _ h => h⟩
theorem jne (ra : Byte) : Statement (.jne ra) := ⟨by simp [encode, Instr.operands, Instr.op]; decide, by simp only [Instr.op]; decide, fun _ h => h⟩
theorem call (ra : Byte) : Statement (.call ra) := ⟨by simp [encode, Instr.operands, Instr.op]; decide, by simp only [Instr.op]; decide, fun _ h => h⟩
theorem ret : Statement .ret := ⟨by simp [encode, Instr.operands, Instr.op]; decide, by simp only [Instr.op]; decide, by simp [Instr.registerOperands]⟩

end Sys2Proof.Laws.EncodedLength
end

