-- ==== Sys2Proof/Tests/Slice0.lean ====
section
/-! SUPPORT. Tests of the model. Decode words are written out from the opcode map of
spec/30_encoding.md R66; expected results are the vectors V-* of spec/95_test_vectors.md, which the
spec derives from its rules. The last part shows, for each obligation with hypotheses, states and
operands that meet them all (`witness_*`). -/

namespace Sys2Proof.Tests

open Sys2Proof.Machine

/-! ### Well-formedness: every register-index byte is checked -/

theorem test_wellFormed_accepts : (Instr.ldi 7 0xFF).wellFormed = true ∧ (Instr.add 0 7).wellFormed = true ∧
    Instr.hlt.wellFormed = true ∧ Instr.ret.wellFormed = true := by decide

theorem test_wellFormed_refuses_a_bad_first_index :
    ([.ldi 8 0, .add 8 0, .mul 8 0, .mod 8 0, .cmp 8 0, .and 8 0, .or 8 0, .xor 8 0, .shl 8 0,
      .shr 8 0] : List Instr).all (!·.wellFormed) = true := by decide

theorem test_wellFormed_refuses_a_bad_second_index :
    ([.add 0 8, .mul 0 8, .mod 0 8, .cmp 0 8, .and 0 8, .or 0 8, .xor 0 8, .shl 0 8,
      .shr 0 0xFF] : List Instr).all (!·.wellFormed) = true := by decide

theorem test_wellFormed_refuses_a_bad_only_index :
    ([.prn 8, .not 8, .push 8, .pop 8, .jmp 8, .jeq 8, .jne 8, .call 0xFF] : List Instr).all
      (!·.wellFormed) = true := by decide

/-! ### Decoding: one word for each constructor, bit by bit -/

theorem test_decode_halt_and_data :
    decode [0b00000001] = .ok (.hlt, []) ∧
    decode [0b10000010, 0b00000011, 0b11111111] = .ok (.ldi 3 0xFF, []) ∧
    decode [0b01000111, 0b00000111] = .ok (.prn 7, []) := by decide

theorem test_decode_arithmetic :
    decode [0b10100000, 0b00000001, 0b00000010] = .ok (.add 1 2, []) ∧
    decode [0b10100010, 0b00000001, 0b00000010] = .ok (.mul 1 2, []) ∧
    decode [0b10100100, 0b00000001, 0b00000010] = .ok (.mod 1 2, []) ∧
    decode [0b10100111, 0b00000001, 0b00000010] = .ok (.cmp 1 2, []) := by decide

theorem test_decode_bitwise :
    decode [0b10101000, 0b00000001, 0b00000010] = .ok (.and 1 2, []) ∧
    decode [0b10101010, 0b00000001, 0b00000010] = .ok (.or 1 2, []) ∧
    decode [0b10101011, 0b00000001, 0b00000010] = .ok (.xor 1 2, []) ∧
    decode [0b01101001, 0b00000001] = .ok (.not 1, []) ∧
    decode [0b10101100, 0b00000001, 0b00000010] = .ok (.shl 1 2, []) ∧
    decode [0b10101101, 0b00000001, 0b00000010] = .ok (.shr 1 2, []) := by decide

theorem test_decode_stack_and_flow :
    decode [0b01000101, 0b00000010] = .ok (.push 2, []) ∧
    decode [0b01000110, 0b00000010] = .ok (.pop 2, []) ∧
    decode [0b01010100, 0b00000011] = .ok (.jmp 3, []) ∧
    decode [0b01010101, 0b00000011] = .ok (.jeq 3, []) ∧
    decode [0b01010110, 0b00000011] = .ok (.jne 3, []) ∧
    decode [0b01010000, 0b00000011] = .ok (.call 3, []) ∧
    decode [0b00010001] = .ok (.ret, []) := by decide

theorem test_decode_rejects_by_name :
    decode [] = .error .noOpcode ∧ decode [0x00, 1, 2] = .error (.unknownOpcode 0x00) ∧
    decode [0xC3, 1, 2, 3] = .error (.unknownOpcode 0xC3) ∧
    decode [0x82, 0] = .error (.missingOperand 0x82) ∧ decode [0x47] = .error (.missingOperand 0x47) := by
  decide

/-- A table word holds the first byte in its low bits, and operand words it leaves out are 0. -/
theorem test_decodeTableWord : decodeTableWord 24 0x080382 = some (.ldi 3 8) ∧
    decodeTableWord 8 0x54 = some (.jmp 0) ∧ decodeTableWord 8 0xFF = none := by decide

/-! ### One step from a small state -/

/-- The reset state with the pc at `p` and bytes stored there. -/
def start (p : Addr) (bytes : List Byte) : State :=
  { State.reset with pc := p, mem := Memory.load [] p.toNat bytes }

/-- The state with a byte stored. -/
def withByte (s : State) (a : Nat) (v : Byte) : State := s.setMem (s.mem.write a v)

/-- The next step answers a state of which `p` holds. -/
def stepGives (s : State) (p : State → Bool) : Bool :=
  match step s with
  | .next t => p t
  | .fault _ => false
  | .refused _ => false

/-- The next step takes this fault, and changes nothing else. -/
def stepFaults (s : State) (c : FaultCause) (info : Addr) : Bool :=
  stepGives s fun t => t == { s with run := .faulted, faultCause := c, faultInfo := info }

/-- The two ALU operand registers. -/
def aluStart (bytes : List Byte) (a b : Byte) : State := ((start 0 bytes).setReg 0 a).setReg 1 b

/-- The next step leaves `x[0]`, `x[1]` and the pc so, and FL as it was. -/
def aluGives (bytes : List Byte) (a b a' : Byte) (p : Addr) : Bool :=
  stepGives (aluStart bytes a b) fun t =>
    t.reg 0 == a' && t.reg 1 == b && t.pc == p && t.fl == State.reset.fl && t.run == .running

/-- V-D9. -/
theorem test_hlt : stepGives (start 0x30 [0x01]) (fun t => t.run == .halted && t.pc == 0x30) = true := by decide

/-- V-D3. -/
theorem test_ldi_r7 : stepGives (start 0 [0x82, 7, 0x40]) (fun t => t.sp == 0x40 && t.pc == 3) = true := by decide

/-- V-D5. -/
theorem test_ldi_at_the_end : stepFaults (start 0xFD [0x82, 0]) .memOob 0xFF = true := by decide

/-- V-D7. -/
theorem test_prn : stepGives (start 0 [0x47, 7]) (fun t => t.out == [244] && t.pc == 2) = true := by decide

/-- V-D8. -/
theorem test_prn_bad_index : stepFaults (start 0 [0x47, 8]) .regOob 8 = true := by decide

/-- V-A1. -/
theorem test_add_wraps : aluGives [0xA0, 0, 1] 200 100 44 3 = true := by decide

/-- V-A27: operand A is checked first. -/
theorem test_add_bad_indices : stepFaults (start 0 [0xA0, 9, 8]) .regOob 9 = true := by decide

/-- V-A5. -/
theorem test_mul_wraps : aluGives [0xA2, 0, 1] 0xFF 0xFF 0x01 3 = true := by decide

/-- V-A8. -/
theorem test_mod : aluGives [0xA4, 0, 1] 0x11 0x05 0x02 3 = true := by decide

/-- V-A7. -/
theorem test_mod_by_zero : stepFaults (aluStart [0xA4, 0, 1] 0x11 0) .divZero 1 = true := by decide

/-- V-A11: unsigned. -/
theorem test_cmp_greater : stepGives (aluStart [0xA7, 0, 1] 0x80 0x01)
    (fun t => t.fl == ⟨false, true, false⟩ && t.reg 0 == 0x80 && t.pc == 3) = true := by decide

/-- V-A12. -/
theorem test_cmp_less : stepGives (aluStart [0xA7, 0, 1] 0x01 0xFF)
    (fun t => t.fl == ⟨false, false, true⟩ && t.reg 0 == 0x01 && t.pc == 3) = true := by decide

/-- V-A13. -/
theorem test_and : aluGives [0xA8, 0, 1] 0xF0 0x3C 0x30 3 = true := by decide

/-- V-A14. -/
theorem test_or : aluGives [0xAA, 0, 1] 0xF0 0x3C 0xFC 3 = true := by decide

/-- V-A15. -/
theorem test_xor : aluGives [0xAB, 0, 1] 0xF0 0x3C 0xCC 3 = true := by decide

/-- V-A17. -/
theorem test_not : aluGives [0x69, 0] 0x0F 0 0xF0 2 = true := by decide

/-- V-A20. -/
theorem test_shl_drops_the_top_bit : aluGives [0xAC, 0, 1] 0x81 0x01 0x02 3 = true := by decide

/-- V-A21. -/
theorem test_shl_by_eight : aluGives [0xAC, 0, 1] 0x01 0x08 0x00 3 = true := by decide

/-- V-A24: logical. -/
theorem test_shr_is_logical : aluGives [0xAD, 0, 1] 0x80 0x01 0x40 3 = true := by decide

/-- V-A25. -/
theorem test_shr_by_eight : aluGives [0xAD, 0, 1] 0xFF 0x08 0x00 3 = true := by decide

/-- V-ST2. -/
theorem test_push_r7 : stepGives (start 0 [0x45, 7])
    (fun t => t.sp == 0xF3 && t.byteAt 0xF3 == 0xF3 && t.pc == 2) = true := by decide

/-- V-E6: the push overwrites its own operand byte, which was already fetched. -/
theorem test_push_over_itself : stepGives (((start 0 [0x45, 0]).setSp 2).setReg 0 0xAA)
    (fun t => t.sp == 1 && t.byteAt 1 == 0xAA && t.pc == 2 && t.run == .running) = true := by decide

/-- V-ST5. -/
theorem test_pop_r7 : stepGives (withByte ((start 0 [0x46, 7]).setSp 0xF3) 0xF3 0x40)
    (fun t => t.sp == 0x41) = true := by decide

/-- V-ST7: an empty stack underflows unseen, and the popped cell is not cleared. -/
theorem test_pop_empty : stepGives (withByte (start 0 [0x46, 1]) 0xF4 0x99)
    (fun t => t.reg 1 == 0x99 && t.sp == 0xF5 && t.byteAt 0xF4 == 0x99) = true := by decide

/-- V-CF1. -/
theorem test_jmp : stepGives ((start 0x10 [0x54, 3]).setReg 3 0x20) (fun t => t.pc == 0x20) = true := by decide

/-- V-CF16. -/
theorem test_jmp_out_of_memory : stepGives ((start 0 [0x54, 3]).setReg 3 0xFF)
    (fun t => t.pc == 0xFF && t.run == .running && stepFaults t .memOob 0xFF) = true := by decide

/-- V-CF3. -/
theorem test_jeq_taken : stepGives (((start 0x10 [0x55, 3]).setReg 3 0x20).setFl ⟨true, false, false⟩)
    (fun t => t.pc == 0x20) = true := by decide

/-- V-CF6: not taken, so the bad index is not looked at. -/
theorem test_jeq_past : stepGives ((start 0x10 [0x55, 9]).setFl ⟨false, false, true⟩)
    (fun t => t.pc == 0x12 && t.run == .running) = true := by decide

/-- V-CF8. -/
theorem test_jne_taken : stepGives ((start 0x10 [0x56, 3]).setReg 3 0x20) (fun t => t.pc == 0x20) = true := by decide

/-- V-CF9. -/
theorem test_jne_past : stepGives (((start 0x10 [0x56, 3]).setReg 3 0x20).setFl ⟨true, false, false⟩)
    (fun t => t.pc == 0x12) = true := by decide

/-- V-CF11. -/
theorem test_call_r7 : stepGives (start 0x10 [0x50, 7])
    (fun t => t.sp == 0xF3 && t.byteAt 0xF3 == 0x12 && t.pc == 0xF3) = true := by decide

/-- V-CF12. -/
theorem test_call_wraps : stepFaults (((start 0x10 [0x50, 1]).setReg 1 0x40).setSp 0) .memOob 0xFF = true := by decide

/-- V-CF14. -/
theorem test_ret : stepGives (withByte ((start 0x40 [0x11]).setSp 0xF3) 0xF3 0x12)
    (fun t => t.pc == 0x12 && t.sp == 0xF4) = true := by decide

/-- V-CF15. -/
theorem test_ret_wraps : stepFaults ((start 0x40 [0x11]).setSp 0xFF) .memOob 0xFF = true := by decide

/-- V-E2. -/
theorem test_unknown_with_count_three : stepGives (start 5 [0xC3])
    (fun t => t.reports == [⟨5, 0xC3⟩] && t.pc == 6 && t.run == .running) = true := by decide

/-- V-E4. -/
theorem test_fetch_past_the_end : stepFaults (start 0xFF []) .memOob 0xFF = true := by decide

/-- The word stored by `withFetchWord` is the one the next step runs (V-D1's bytes). -/
theorem test_withFetchWord : stepGives (State.reset.withFetchWord 24 0x080082)
    (fun t => t.reg 0 == 8 && t.pc == 3 && t.ir == 0x82) = true := by decide

/-! ### Witnesses: states and operands that meet every hypothesis of an obligation -/

/-- A state near the end of memory with instruction bytes at the pc; few bytes follow them. -/
def near (p : Addr) (bytes : List Byte) : State := start p bytes

theorem near_hlt : (near 0xFE [0x01]).AtPc .hlt := ⟨[], by decide⟩
theorem near_ldi : (near 0xFC [0x82, 7, 5]).AtPc (.ldi 7 5) := ⟨[], by decide⟩
theorem near_prn : (near 0xFD [0x47, 7]).AtPc (.prn 7) := ⟨[], by decide⟩
theorem near_add : (near 0xFC [0xA0, 7, 7]).AtPc (.add 7 7) := ⟨[], by decide⟩
theorem near_mod : (near 0xFC [0xA4, 1, 6]).AtPc (.mod 1 6) := ⟨[], by decide⟩
theorem near_cmp : (near 0xFC [0xA7, 0, 7]).AtPc (.cmp 0 7) := ⟨[], by decide⟩
theorem near_push : (near 0xFD [0x45, 6]).AtPc (.push 6) := ⟨[], by decide⟩
theorem near_pop : (near 0xFD [0x46, 7]).AtPc (.pop 7) := ⟨[], by decide⟩
theorem near_jmp : (near 0xFD [0x54, 7]).AtPc (.jmp 7) := ⟨[], by decide⟩
theorem near_jeq : (near 0xFD [0x55, 7]).AtPc (.jeq 7) := ⟨[], by decide⟩
theorem near_jne : (near 0xFD [0x56, 7]).AtPc (.jne 7) := ⟨[], by decide⟩
theorem near_call : (near 0xFD [0x50, 7]).AtPc (.call 7) := ⟨[], by decide⟩
theorem near_ret : (near 0xFE [0x11]).AtPc .ret := ⟨[], by decide⟩

/-- OpcodeMapKeepsItsConstraints: a byte with count field 3. -/
theorem witness_count_field_three : operandCount 0xC0 = 3 ∧ operandCount 0xFF = 3 := by decide

/-- StepRunsTheDecodedInstruction: an instruction at the pc, one that completes and one that faults. -/
theorem witness_step_runs : (near 0xFC [0x82, 7, 5]).Active ∧
    (near 0xFC [0x82, 7, 5]).AtPc (.ldi 7 5) ∧
    stepGives (near 0xFC [0x82, 7, 5]) (fun t => t.run == .running) = true ∧
    (near 0xFC [0xA4, 1, 6]).AtPc (.mod 1 6) ∧ stepFaults (near 0xFC [0xA4, 1, 6]) .divZero 6 = true :=
  ⟨⟨by decide, by decide⟩, near_ldi, by decide, near_mod, by decide⟩

/-- OperandsFollowTheOpcode: each operand count, with the last byte in the last cell. -/
theorem witness_operands_follow :
    (opcodeMap ((near 0xFE [0x01]).byteAt 0xFE) = some .hlt ∧ 0xFE + operandCount Op.hlt.byte < Config.memSize) ∧
    (opcodeMap ((near 0xFD [0x47, 7]).byteAt 0xFD) = some .prn ∧ 0xFD + operandCount Op.prn.byte < Config.memSize) ∧
    (opcodeMap ((near 0xFC [0xA0, 7, 7]).byteAt 0xFC) = some .add ∧
      0xFC + operandCount Op.add.byte < Config.memSize) := by decide

/-- OpcodeFetchFaultsOrSetsIr: the first pc that is no cell, and the last cell. -/
theorem witness_opcode_fetch :
    ((near 0xFF []).Active ∧ Config.memSize ≤ (near 0xFF []).pc.toNat) ∧
    ((near 0xFE [0x01]).Active ∧ (near 0xFE [0x01]).pc.toNat < Config.memSize ∧
      stepGives (near 0xFE [0x01]) (fun t => t.run == .halted && t.ir == 0x01) = true) := by
  unfold State.Active; decide

/-- UnknownOpcodeIsReportedAndSkipped (and the clause of WhereEachStepLeavesThePc about it): an
unrecognised opcode in the last cell (V-E3). -/
theorem witness_unknown : (near 0xFE [0xFF]).Active ∧ (near 0xFE [0xFF]).pc.toNat < Config.memSize ∧
    opcodeMap ((near 0xFE [0xFF]).byteAt (near 0xFE [0xFF]).pc.toNat) = none ∧
    stepGives (near 0xFE [0xFF]) (fun t => t.pc == 0xFF && t.reports == [⟨0xFE, 0xFF⟩]) = true := by
  unfold State.Active; decide

/-- TerminalStatesNeverChange: both terminal run-states. -/
theorem witness_terminal : (State.reset.setRun .halted).Terminal ∧ (State.reset.takeFault (.regOob 8)).Terminal :=
  ⟨.inl rfl, .inr rfl⟩

/-- OnlyHltHalts: a step that halts and one that does not. -/
theorem witness_halts : (near 0xFE [0x01]).AtPc .hlt ∧
    stepGives (near 0xFE [0x01]) (fun t => t.run == .halted) = true ∧
    stepGives (near 0xFC [0xA0, 7, 7]) (fun t => t.run == .running) = true :=
  ⟨near_hlt, by decide, by decide⟩

/-- FaultsArePrecise and the other statements about a faulting step: a step of each fault kind. -/
theorem witness_faulting_steps : stepFaults (near 0xFF []) .memOob 0xFF = true ∧
    stepFaults (near 0xFD [0x45, 8]) .regOob 8 = true ∧
    stepFaults (near 0xFC [0xA4, 1, 6]) .divZero 6 = true := by decide

/-- OnlyCmpWritesTheFlags: a CMP that changes FL. -/
theorem witness_cmp : (near 0xFC [0xA7, 0, 7]).AtPc (.cmp 0 7) ∧
    stepGives (near 0xFC [0xA7, 0, 7]) (fun t => t.run == .running && t.fl != State.reset.fl) = true :=
  ⟨near_cmp, by decide⟩

/-- OnlyConditionalJumpsReadTheEqualFlag: a JEQ with FL.E kept and FL.G changed, and an ADD with all of
FL changed. -/
theorem witness_flags_read :
    ((near 0xFD [0x55, 7]).AtPc (.jeq 7) ∧ (⟨false, true, false⟩ : Flags).e = (near 0xFD [0x55, 7]).fl.e ∧
      ⟨false, true, false⟩ ≠ (near 0xFD [0x55, 7]).fl) ∧
    ((∀ ra, ¬ (near 0xFC [0xA0, 7, 7]).AtPc (.jeq ra) ∧ ¬ (near 0xFC [0xA0, 7, 7]).AtPc (.jne ra)) ∧
      (⟨true, true, true⟩ : Flags).e ≠ (near 0xFC [0xA0, 7, 7]).fl.e) := by
  refine ⟨⟨near_jeq, by decide, by decide⟩, fun ra => ?_, by decide⟩
  have h : decode ((near 0xFC [0xA0, 7, 7]).bytesFrom (near 0xFC [0xA0, 7, 7]).pc.toNat) =
      .ok (.add 7 7, []) := by decide
  constructor <;> rintro ⟨r, hr⟩ <;> rw [h] at hr <;> cases hr

/-- HiddenStateNeverSteersAProgram: two states that agree only on what a program can see. -/
theorem witness_program_eq : ∃ s' : State, (near 0xFD [0x47, 7]).ProgramEq s' ∧ s' ≠ near 0xFD [0x47, 7] ∧
    stepGives (near 0xFD [0x47, 7]) (fun t => t.out == [0xF4]) = true ∧
    stepGives s' (fun t => t.out == [9, 0xF4]) = true :=
  ⟨{ near 0xFD [0x47, 7] with fl := ⟨false, true, false⟩, ir := 1, mar := 2, mdr := 3, out := [9] },
    ⟨rfl, rfl, rfl, rfl, rfl, rfl, rfl, rfl⟩, by decide, by decide, by decide⟩

/-- OnlyPushAndCallWriteMemory: a push and a call that change a byte. -/
theorem witness_memory_changes :
    ((near 0xFD [0x45, 6]).AtPc (.push 6) ∧ (near 0xFD [0x45, 6]).mem.wf = true ∧
      stepGives ((near 0xFD [0x45, 6]).setReg 6 5) (fun t => t.byteAt 0xF3 != 0) = true) ∧
    ((near 0xFD [0x50, 7]).AtPc (.call 7) ∧ (near 0xFD [0x50, 7]).mem.wf = true ∧
      stepGives (near 0xFD [0x50, 7]) (fun t => t.byteAt 0xF3 == 0xFF) = true) :=
  ⟨⟨near_push, by decide, by decide⟩, near_call, by decide, by decide⟩

/-- PortsDeliverOnlyPrnAndUnknownOpcodes: a step that prints and one that reports. -/
theorem witness_ports : stepGives (near 0xFD [0x47, 7]) (fun t => t.out != []) = true ∧
    stepGives (near 0xFE [0x00]) (fun t => t.reports != []) = true := by decide

/-- WhereEachStepLeavesThePc: each shape of clause at the end of memory, both sides of the
conditional jumps among them. -/
theorem witness_pc_moves : (near 0xFE [0x01]).AtPc .hlt ∧ (near 0xFC [0xA0, 7, 7]).AtPc (.add 7 7) ∧
    (near 0xFD [0x47, 7]).AtPc (.prn 7) ∧ (near 0xFD [0x54, 7]).AtPc (.jmp 7) ∧
    (near 0xFD [0x55, 7]).AtPc (.jeq 7) ∧ (near 0xFD [0x56, 7]).AtPc (.jne 7) ∧
    (near 0xFD [0x50, 7]).AtPc (.call 7) ∧ (near 0xFE [0x11]).AtPc .ret ∧
    stepGives (near 0xFD [0x55, 7]) (fun t => t.pc == 0xFF) = true ∧
    stepGives ((near 0xFD [0x55, 7]).setFl ⟨true, false, false⟩) (fun t => t.pc == 0xF4) = true ∧
    stepGives (near 0xFD [0x56, 7]) (fun t => t.pc == 0xF4) = true ∧
    stepGives ((near 0xFD [0x56, 7]).setFl ⟨true, false, false⟩) (fun t => t.pc == 0xFF) = true :=
  ⟨near_hlt, near_add, near_prn, near_jmp, near_jeq, near_jne, near_call, near_ret, by decide, by decide,
    by decide, by decide⟩

/-- EveryStepKeepsTheLegalStates and ResetAndLoadAreLegal: a legal state with a step, and one with
reset held where the host may load an image, and each other move of the host. -/
theorem witness_legal : State.reset.Legal ∧ stepGives State.reset (fun t => t.pc == 1) = true ∧
    State.reset.hostReset.Legal ∧ (∃ t, advance (.load [0x01]) State.reset.hostReset = some (.next t)) ∧
    (∃ t, advance .assertReset State.reset = some (.next t)) ∧
    ∃ t, advance .releaseReset State.reset.hostReset = some (.next t) :=
  ⟨⟨by decide, by decide, by decide, ⟨by decide, by decide⟩, by decide, by decide⟩, by decide,
    ⟨by decide, by decide, by decide, ⟨by decide, by decide⟩, by decide, fun _ => rfl⟩,
    ⟨_, rfl⟩, ⟨_, rfl⟩, _, rfl⟩

/-- MemoryFaultsExactlyAtItsSites: every site, operand A and operand B apart. -/
theorem witness_memory_faults : stepFaults (near 0x100 []) .memOob 0x100 = true ∧
    stepFaults (near 0xFE [0x47]) .memOob 0xFF = true ∧ stepFaults (near 0xFE [0x82]) .memOob 0xFF = true ∧
    stepFaults (near 0xFD [0x82, 0]) .memOob 0xFF = true ∧
    stepFaults ((near 0xFD [0x45, 6]).setSp 0) .memOob 0xFF = true ∧
    stepFaults ((near 0xFD [0x50, 7]).setSp 0) .memOob 0xFF = true ∧
    stepFaults ((near 0xFD [0x46, 7]).setSp 0xFF) .memOob 0xFF = true ∧
    stepFaults ((near 0xFE [0x11]).setSp 0xFF) .memOob 0xFF = true := by decide

/-- DivideByZeroExactlyAtModZero: a MOD with the last register, holding 0, as the divisor. -/
theorem witness_divide_by_zero : ((near 0xFC [0xA4, 7, 7]).setSp 0).Active ∧
    ((near 0xFC [0xA4, 7, 7]).setSp 0).AtPc (.mod 7 7) ∧ (7 : Byte).toNat < Config.numRegs ∧
    ((near 0xFC [0xA4, 7, 7]).setSp 0).reg ⟨(7 : Byte).toNat, by decide⟩ = 0 ∧
    stepFaults ((near 0xFC [0xA4, 7, 7]).setSp 0) .divZero 7 = true :=
  ⟨⟨by decide, by decide⟩, ⟨[], by decide⟩, by decide, by decide, by decide⟩

/-- RegisterFaultsExactlyAtInvalidIndex: the first invalid index, alone and after a valid one; and
instructions with every accessed index valid, a not-taken jump with an index of 255 among them. -/
theorem witness_register_faults : State.reset.run ≠ .faulted ∧
    (((Instr.add 7 8).accessed false).find? fun r => !validIndex r) = some 8 ∧
    (((Instr.mod 0xFF 8).accessed false).find? fun r => !validIndex r) = some 0xFF ∧
    ((Instr.jeq 8).accessed true).find? (fun r => !validIndex r) = some 8 ∧
    ((Instr.jeq 0xFF).accessed false).all validIndex = true ∧
    ((Instr.shr 7 0).accessed false).all validIndex = true := by decide

/-- StackFaultsKeepTheStackPointer. -/
theorem witness_stack_faults : (7 : Byte).toNat < Config.numRegs ∧ (State.reset.setSp 0).sp = 0 ∧
    (State.reset.setSp 0xFF).sp = 0xFF := by decide

/-- The statements of results and completion of the register forms: the last register as every operand,
and a divisor of 1 for MOD. -/
theorem witness_register_forms : (7 : Byte).toNat < Config.numRegs ∧
    (State.reset.setReg 7 1).reg ⟨(7 : Byte).toNat, by decide⟩ ≠ 0 := by decide

/-- ShiftsUseTheWholeAmount: an amount of 8. -/
theorem witness_shift_amount : 8 ≤ ((State.reset.setReg 7 8).reg ⟨(7 : Byte).toNat, by decide⟩).toNat := by decide

/-- PushStoresBelowTheStackPointer, CallPushesTheReturnAddress, PopLoadsTheTopOfTheStack and
RetPopsThePc, at the edges of the stack pointer, for R7 and for another register. -/
theorem witness_stack_forms : (7 : Byte).toNat < Config.numRegs ∧ (6 : Byte).toNat < Config.numRegs ∧
    (6 : Byte) ≠ 7 ∧ (State.reset.setSp 1).sp ≠ 0 ∧ (State.reset.setSp 0xFF).sp ≠ 0 ∧
    (State.reset.setSp 1).mem.wf = true ∧ (State.reset.setSp 0xFE).sp ≠ 0xFF ∧
    (State.reset.setSp 0).sp ≠ 0xFF := by decide

/-- ConditionalJumpsTestTheEqualFlag: FL.E set and clear. -/
theorem witness_conditional_jumps : (State.reset.setFl ⟨true, false, false⟩).fl.e = true ∧
    State.reset.fl.e = false ∧ (7 : Byte).toNat < Config.numRegs := by decide

/-- EachInstructionKeepsItsFrame and LoadsAndRegisterFormsStoreNothing: instructions whose meaning
answers a state that is not faulted. -/
theorem witness_frame : (∃ t, exec (.add 7 7) State.reset = .next t ∧ t.run ≠ .faulted) ∧
    (∃ t, exec .ret State.reset = .next t ∧ t.run ≠ .faulted) ∧
    ∀ ra, Instr.ret ≠ .push ra ∧ Instr.ret ≠ .call ra :=
  ⟨⟨_, rfl, by decide⟩, ⟨_, rfl, by decide⟩, fun _ => ⟨nofun, nofun⟩⟩

/-- PushAndCallStoreOneByte: a push that completes at the lowest cell, a call that completes, and one
that faults. -/
theorem witness_one_byte : State.reset.mem.wf = true ∧
    (∃ t, exec (.push 7) (State.reset.setSp 1) = .next t ∧ t.run ≠ .faulted ∧
      (State.reset.setSp 1).run ≠ .faulted ∧ (State.reset.setSp 1).decSp.spAddr.toNat = 0) ∧
    (∃ t, exec (.call 7) (State.reset.setSp 1) = .next t ∧ t.run ≠ .faulted) ∧
    (∃ t, exec (.call 7) (State.reset.setSp 0) = .next t ∧ t.run = .faulted ∧
      (State.reset.setSp 0).run ≠ .faulted) :=
  ⟨by decide, ⟨_, rfl, by decide, by decide, by decide⟩, ⟨_, rfl, by decide⟩, _, rfl, by decide, by decide⟩

/-- CallThenReturnComesBack: a CALL at the last place it fits. -/
theorem witness_call_then_return : (near 0xFD [0x50, 7]).pc.toNat + 1 < Config.memSize ∧
    ((near 0xFD [0x50, 7]).setSp 1).sp ≠ 0 ∧ ((near 0xFD [0x50, 7]).setSp 1).mem.wf = true := by decide

/-- JumpOutOfMemoryFaultsAtTheNextFetch. -/
theorem witness_jump_out : ((near 0xFD [0x54, 7]).setSp 0xFF).Active ∧
    ((near 0xFD [0x54, 7]).setSp 0xFF).AtPc (.jmp 7) ∧
    Config.memSize ≤ (((near 0xFD [0x54, 7]).setSp 0xFF).reg ⟨(7 : Byte).toNat, by decide⟩).toNat :=
  ⟨⟨by decide, by decide⟩, ⟨[], by decide⟩, by decide⟩

/-- PushedByteIsSeenByTheNextFetch: a push whose byte lands on the next opcode and is unrecognised. -/
theorem witness_pushed_byte : ∃ s : State, s.Active ∧ s.AtPc (.push 6) ∧ s.sp ≠ 0 ∧
    s.mem.wf = true ∧ (s.sp - 1).toNat = (s.pc + 2).toNat ∧
    opcodeMap (s.reg ⟨(6 : Byte).toNat, by decide⟩) = none :=
  ⟨(near 0xFC [0x45, 6]).setSp 0xFF, ⟨by decide, by decide⟩, ⟨[0], by decide⟩, by decide, by decide, by decide, by decide⟩

/-- MemReadChecksItsBound and MemWriteSetsOneCell: the last cell and the first address that is none. -/
theorem witness_bounds : (0xFE : Addr).toNat < Config.memSize ∧ Config.memSize ≤ (0xFF : Addr).toNat ∧
    State.reset.mem.wf = true := by decide

/-- HostLoadPlacesTheImage: loads that the host may make, in a terminal run-state and with reset held,
one it may not while the CORE runs, and one that is too long. -/
theorem witness_load : State.reset.mem.wf = true ∧ ((State.reset.setRun .halted).hostLoad [1, 2]).isSome = true ∧
    (State.reset.hostReset.hostLoad [1, 2]).isSome = true ∧ (State.reset.hostLoad [1, 2]).isSome = false ∧
    ∃ image : List Byte, image.length = 256 ∧ (State.reset.hostReset.hostLoad image).isSome = false := by
  refine ⟨by decide, by decide, by decide, by decide, List.replicate 256 1, List.length_replicate, ?_⟩
  rw [State.hostLoad, List.length_replicate]
  decide

/-- NoStepWhileResetIsHeld: an instruction that would otherwise run (R170). -/
theorem witness_reset_held : { near 0xFD [0x47, 7] with resetHeld := true }.resetHeld = true ∧
    (near 0xFD [0x47, 7]).Active ∧
    stepGives (near 0xFD [0x47, 7]) (fun t => t.out == [0xF4]) = true ∧
    stepGives { near 0xFD [0x47, 7] with resetHeld := true } (fun t => t.out == []) = true :=
  ⟨rfl, ⟨by decide, by decide⟩, by decide, by decide⟩

/-- FirstStepAfterResetFetchesAtZero: an image of one byte, HLT. -/
theorem witness_boot : (near 0xFD [0x47, 7]).mem.wf = true ∧ ([] : List Byte).length < Config.memSize ∧
    (∃ u, advance (.load [0x01]) (near 0xFD [0x47, 7]).hostReset = some (.next u) ∧
      stepGives u.hostRelease (fun w => w.run == .halted && w.ir == 0x01) = true) :=
  ⟨by decide, by decide, _, rfl, by decide⟩

/-- The host's reset leaves a faulted state (R157) with the values of R39, and memory as it was (R171). -/
theorem test_hostReset : ((near 0xFD [0x46, 8]).takeFault (.regOob 8)).hostReset.statusOutputs = (0, 0, 0) ∧
    ((near 0xFD [0x46, 8]).setReg 3 7).hostReset.reg 3 = 0 ∧
    (near 0xFD [0x46, 8]).hostReset.byteAt 0xFD = 0x46 := by decide

end Sys2Proof.Tests
end

section
/-! The reset state's registers and pc (spec/00_scope.md section 3), and O48. -/

namespace Sys2Proof.Machine

/-- The register file after reset (R11, R14): `GPR_RESET` everywhere but in the stack pointer. -/
theorem State.reg_reset (j : Fin Config.numRegs) :
    State.reset.reg j = if j = Config.spIndex then Config.spInit else Config.gprReset := by
  have hset : State.reset.reg j =
      if (Config.spIndex : Nat) = j then Config.spInit
      else (Vector.replicate Config.numRegs Config.gprReset)[j] :=
    Vector.getElem_set Config.spIndex.isLt j.isLt
  rw [hset, Fin.getElem_fin, Vector.getElem_replicate]
  simp only [Fin.ext_iff, eq_comm]

@[simp] theorem State.reset_sp : State.reset.sp = Config.spInit :=
  (State.reg_reset Config.spIndex).trans (if_pos rfl)

@[simp] theorem State.reset_pc : State.reset.pc = Config.pcReset := rfl

/-- Settles O48: register 7 and the pc after reset are `SP_INIT` (R11) and `PC_RESET` (R12). -/
theorem resetSetsStackPointerAndPc : Obligations.ResetSetsStackPointerAndPc :=
  ⟨State.reset_sp, State.reset_pc⟩

end Sys2Proof.Machine
end

section
/-! What an instruction does is one thing: `Completes` and `Raises` exclude each other and each has one
result, so either of them, known of a state, gives `exec` there: the converse of `exec_cases`. -/

namespace Sys2Proof.Machine

variable {s t t' : State} {i : Instr} {r r' : Raise} {k : Byte}

/-! ### One result for each instruction -/

theorem Completes.unique (h : Completes s i t) (h' : Completes s i t') : t = t' := by
  cases h with
  | jeqTaken _ he => cases h' with
    | jeqTaken => rfl
    | jeqPast _ he' => simp [he] at he'
  | jeqPast _ he => cases h' with
    | jeqTaken _ he' => simp [he] at he'
    | jeqPast => rfl
  | jneTaken _ he => cases h' with
    | jneTaken => rfl
    | jnePast _ he' => simp [he] at he'
  | jnePast _ he => cases h' with
    | jneTaken _ he' => simp [he] at he'
    | jnePast => rfl
  | _ => cases h'; rfl

/-- An instruction that completes accesses registers only (R82). -/
theorem Completes.no_invalid_index (h : Completes s i t) :
    (i.accessed s.fl.e).find? (fun r => !validIndex r) = none := by
  cases h <;> simp_all [Instr.accessed, Instr.registerOperands, validIndex_iff]

/-- Where an index is invalid, no other fault is raised: every register check comes first (R92). -/
theorem Raises.eq_regOob (h : Raises s i r)
    (hk : (i.accessed s.fl.e).find? (fun r => !validIndex r) = some k) : r = .regOob k := by
  cases h with
  | index _ _ _ hk' => rw [hk] at hk'; cases hk'; rfl
  | _ => simp_all [Instr.accessed, Instr.registerOperands, validIndex_iff]

theorem Raises.unique (h : Raises s i r) (h' : Raises s i r') : r = r' := by
  have hr := h
  cases h with
  | index _ _ _ hk => exact (h'.eq_regOob hk).symm
  | _ =>
    cases h' with
    | index _ _ _ hk => exact hr.eq_regOob hk
    | _ => rfl

theorem Completes.not_raises (h : Completes s i t) : ¬ Raises s i r := by
  intro hr
  cases hr with
  | index _ _ _ hk => rw [h.no_invalid_index] at hk; cases hk
  | divisor _ _ _ _ hz => cases h with | mod _ _ _ _ hnz => exact hnz hz
  | push _ _ ha => cases h with | push _ _ ha' => omega
  | call _ _ ha => cases h with | call _ _ ha' => omega
  | pop _ _ ha => cases h with | pop _ _ ha' => omega
  | ret ha => cases h with | ret ha' => omega

theorem Completes.exec_eq (h : Completes s i t) : exec i s = .next t := by
  rcases exec_cases i s with ⟨t', h', he⟩ | ⟨r, hr, -⟩
  · rw [he, h.unique h']
  · exact absurd hr h.not_raises

theorem Raises.exec_eq (h : Raises s i r) : exec i s = .next (s.takeFault r) := by
  rcases exec_cases i s with ⟨t, h', -⟩ | ⟨r', h', he⟩
  · exact absurd h h'.not_raises
  · rw [he, h.unique h']

/-! ### The step of an instruction -/

/-- A step that runs the instruction at the pc and takes no fault completes that instruction. -/
theorem State.AtPc.completes (hi : s.AtPc i) (ha : s.Active) (hs : step s = .next t)
    (hf : t.run ≠ .faulted) : Completes (s.afterFetch i) i t := by
  obtain ⟨rest, hd⟩ := hi
  simp only [step_of_active ha, hd] at hs
  rcases exec_cases i (s.afterFetch i) with ⟨u, hc, he⟩ | ⟨r, -, he⟩
  · rw [he] at hs
    by_cases hu : u.run = .faulted
    · rw [commit, if_pos hu] at hs
      cases hs
      exact absurd hu hf
    · rw [commit_next_of_not_faulted hu] at hs
      cases hs
      exact hc
  · rw [he, commit_takeFault] at hs
    cases hs
    exact absurd rfl hf

end Sys2Proof.Machine
end

section
/-! Who writes FL (spec/10_state.md R30), and O11. -/

namespace Sys2Proof.Machine

variable {s t : State} {i : Instr}

/-- A completed CMP leaves the comparison's flags (R114); any other instruction leaves FL as it was. -/
theorem Completes.fl_eq (h : Completes s i t) :
    t.fl = s.fl ∨ ∃ ra rb va vb, i = .cmp ra rb ∧ t.fl = compareFlags va vb := by
  cases h with
  | cmp ra rb => exact .inr ⟨ra, rb, _, _, rfl, rfl⟩
  | _ => exact .inl rfl

/-- R114: the comparison sets exactly one of the three bits. -/
theorem compareFlags_one_hot (va vb : Byte) :
    compareFlags va vb = ⟨true, false, false⟩ ∨ compareFlags va vb = ⟨false, true, false⟩ ∨
      compareFlags va vb = ⟨false, false, true⟩ := by
  simp only [compareFlags, Flags.mk.injEq, decide_eq_true_eq, decide_eq_false_iff_not]
  omega

/-- FL changes in a step only by a CMP that the CORE completes. -/
theorem step_fl_ne (hs : step s = .next t) (hne : t.fl ≠ s.fl) :
    s.Active ∧ t.run ≠ .faulted ∧ ∃ ra rb, s.AtPc (.cmp ra rb) := by
  by_cases ha : s.Active
  · rcases step_cases ha with
      ⟨i, u, hi, hc, hf, he⟩ | ⟨i, r, -, -, he⟩ | ⟨b, -, he⟩ | ⟨-, he⟩ | ⟨b, -, he⟩ <;>
      (rw [he] at hs; cases hs)
    · rcases hc.fl_eq with h | ⟨ra, rb, -, -, rfl, -⟩
      · exact absurd h hne
      · exact ⟨ha, hf, ra, rb, hi⟩
    all_goals exact absurd rfl hne
  · rw [step_of_not_active ha] at hs
    cases hs
    exact absurd rfl hne

/-- Settles O11: a step changes FL only by completing a CMP, whose flags are those of a comparison. -/
theorem onlyCmpWritesTheFlags : Obligations.OnlyCmpWritesTheFlags := by
  intro s t hs
  refine ⟨step_fl_ne hs, fun ra rb ha hi hf => ?_⟩
  cases hi.completes ha hs hf with
  | cmp => exact compareFlags_one_hot _ _

end Sys2Proof.Machine
end

section
/-! Who reads FL (spec/10_state.md R31), and O12: `Completes`, `Raises`, `exec` and `step` from a state
whose flags are replaced. -/

namespace Sys2Proof.Machine

variable {s t : State} {i : Instr} {r : Raise} {f : Flags}

theorem Completes.setFl (h : Completes s i t)
    (hf : (∃ ra, i = .jeq ra ∨ i = .jne ra) → f.e = s.fl.e) :
    ∃ g, Completes (s.setFl f) i (t.setFl g) := by
  cases h with
  | cmp ra rb ha hb => exact ⟨_, .cmp ra rb ha hb⟩
  | jeqTaken ra he hr => exact ⟨f, .jeqTaken ra ((hf ⟨ra, .inl rfl⟩).trans he) hr⟩
  | jeqPast ra he => exact ⟨f, .jeqPast ra ((hf ⟨ra, .inl rfl⟩).trans he)⟩
  | jneTaken ra he hr => exact ⟨f, .jneTaken ra ((hf ⟨ra, .inr rfl⟩).trans he) hr⟩
  | jnePast ra he => exact ⟨f, .jnePast ra ((hf ⟨ra, .inr rfl⟩).trans he)⟩
  | _ => exact ⟨f, by constructor <;> assumption⟩

/-- Which registers an instruction accesses depends on FL.E only for JEQ and JNE (R22). -/
theorem accessed_congr {e e' : Bool} (h : (∃ ra, i = .jeq ra ∨ i = .jne ra) → e' = e) :
    i.accessed e' = i.accessed e := by
  cases i with
  | jeq ra => rw [h ⟨ra, .inl rfl⟩]
  | jne ra => rw [h ⟨ra, .inr rfl⟩]
  | _ => rfl

theorem Raises.setFl (h : Raises s i r)
    (hf : (∃ ra, i = .jeq ra ∨ i = .jne ra) → f.e = s.fl.e) : Raises (s.setFl f) i r := by
  cases h with
  | index _ k hk hb => exact .index i k hk (by rwa [State.setFl_fl, accessed_congr hf])
  | _ => constructor <;> assumption

theorem exec_setFl (hf : (∃ ra, i = .jeq ra ∨ i = .jne ra) → f.e = s.fl.e) :
    ∃ t g, exec i s = .next t ∧ exec i (s.setFl f) = .next (t.setFl g) := by
  rcases exec_cases i s with ⟨t, h, he⟩ | ⟨r, h, he⟩
  · obtain ⟨g, h'⟩ := h.setFl hf
    exact ⟨t, g, he, h'.exec_eq⟩
  · exact ⟨_, f, he, (h.setFl hf).exec_eq⟩

theorem commit_setFl (s t : State) (f g : Flags) :
    ∃ u g', commit s (.next t) = .next u ∧
      commit (s.setFl f) (.next (t.setFl g)) = .next (u.setFl g') := by
  by_cases h : t.run = .faulted
  · exact ⟨_, f, if_pos h, if_pos h⟩
  · exact ⟨t, g, if_neg h, if_neg h⟩

/-- A step from other flags makes the same state but for FL, unless it is a conditional jump's and
FL.E differs. -/
theorem step_setFl (hf : (∃ ra, s.AtPc (.jeq ra) ∨ s.AtPc (.jne ra)) → f.e = s.fl.e) :
    ∃ t g, step s = .next t ∧ step (s.setFl f) = .next (t.setFl g) := by
  by_cases ha : s.Active
  · have ha' : (s.setFl f).Active := ha
    have hb : (s.setFl f).bytesFrom (s.setFl f).pc.toNat = s.bytesFrom s.pc.toNat := rfl
    rw [step_of_active ha, step_of_active ha', hb]
    rcases hd : decode (s.bytesFrom s.pc.toNat) with (_ | b | _) | ⟨i, rest⟩
    · exact ⟨_, f, rfl, rfl⟩
    · exact ⟨_, f, rfl, rfl⟩
    · exact ⟨_, f, rfl, rfl⟩
    · have hi : s.AtPc i := ⟨rest, hd⟩
      have hf' : (∃ ra, i = .jeq ra ∨ i = .jne ra) → f.e = (s.afterFetch i).fl.e := by
        rintro ⟨ra, rfl | rfl⟩
        · exact hf ⟨ra, .inl hi⟩
        · exact hf ⟨ra, .inr hi⟩
      obtain ⟨u, g, he, he'⟩ := exec_setFl hf'
      have hx : exec i ((s.setFl f).afterFetch i) = .next (u.setFl g) := he'
      simp only [he, hx]
      exact commit_setFl s u f g
  · exact ⟨s, f, step_of_not_active ha, step_of_not_active (s := s.setFl f) ha⟩

/-- Settles O12: replacing FL commutes with the step, up to FL of the result. -/
theorem onlyConditionalJumpsReadTheEqualFlag : Obligations.OnlyConditionalJumpsReadTheEqualFlag := by
  intro s f t t' hs hs' h
  have hf : (∃ ra, s.AtPc (.jeq ra) ∨ s.AtPc (.jne ra)) → f.e = s.fl.e := by
    rintro ⟨ra, hj⟩
    exact h.resolve_right fun hn => hj.elim (hn ra).1 (hn ra).2
  obtain ⟨u, g, hu, hu'⟩ := step_setFl hf
  obtain rfl : u = t := Host.Outcome.next.inj (hu.symm.trans hs)
  obtain rfl : u.setFl g = t' := Host.Outcome.next.inj (hu'.symm.trans hs')
  rfl

end Sys2Proof.Machine
end

section
/-! The memory interface (spec/20_memory.md R42, R43): what a state reads as after a store, and O46
and O47. -/

namespace Sys2Proof.Machine

/-- The cell written reads as the byte written. -/
theorem State.byteAt_setMem_write_self {s t : State} (hm : s.mem.wf = true) (a : Nat) (v : Byte) :
    (t.setMem (s.mem.write a v)).byteAt a = v :=
  Memory.read_write_self hm a v

/-- Every other cell reads as before the write. -/
theorem State.byteAt_setMem_write_of_ne {s t : State} (hm : s.mem.wf = true) {a b : Nat} (v : Byte)
    (hab : a ≠ b) : (t.setMem (s.mem.write a v)).byteAt b = s.byteAt b :=
  Memory.read_write_of_ne hm v hab

/-- Settles O46: the two results of a read, `memRead_eq_error` and `memRead_eq_ok`; `setTrace` is the
update of MAR and MDR that R59 names. -/
theorem memReadChecksItsBound : Obligations.MemReadChecksItsBound :=
  fun _ _ => ⟨memRead_eq_error, memRead_eq_ok⟩

/-- Settles O47: the two results of a write, and the memory laws at the cell written and beside it. -/
theorem memWriteSetsOneCell : Obligations.MemWriteSetsOneCell := by
  intro a v s hm
  refine ⟨memWrite_eq_error, fun ha => ⟨_, memWrite_eq_ok ha, ?_, ?_, rfl⟩⟩
  · exact State.byteAt_setMem_write_self hm a.toNat v
  · exact fun b hb => State.byteAt_setMem_write_of_ne hm v hb.symm

end Sys2Proof.Machine
end

section
/-! Where a step does nothing and that it never stops (spec/40_execution_cycle.md R81), and O8. -/

namespace Sys2Proof.Machine

variable {s : State}

theorem State.Terminal.not_active (h : s.Terminal) : ¬ s.Active := by
  rintro ⟨hr, -⟩
  rcases h with h | h <;> cases hr.symm.trans h

theorem step_of_terminal (h : s.Terminal) : step s = .next s := step_of_not_active h.not_active

/-- No step stops: an active one ends in one of the ways of `step_cases`, any other stays. -/
theorem step_next (s : State) : ∃ t, step s = .next t := by
  by_cases ha : s.Active
  · rcases step_cases ha with
      ⟨_, t, -, -, -, h⟩ | ⟨_, _, -, -, h⟩ | ⟨_, -, h⟩ | ⟨-, h⟩ | ⟨_, -, h⟩ <;> exact ⟨_, h⟩
  · exact ⟨s, step_of_not_active ha⟩

/-- Settles O8: a terminal state is not active, and every step has a next state. -/
theorem terminalStatesNeverChange : Obligations.TerminalStatesNeverChange := by
  intro s
  obtain ⟨t, ht⟩ := step_next s
  exact ⟨step_of_terminal, t, ht, fun u hu => Host.Outcome.next.inj (hu.symm.trans ht)⟩

end Sys2Proof.Machine
end

section
/-! The opcode fetch as a whole step shows it (spec/40_execution_cycle.md R83), and O6. -/

namespace Sys2Proof.Machine

variable {s t : State} {i : Instr}

/-- A pc that is no cell's address faults at the fetch. -/
theorem step_of_pc_outside (ha : s.Active) (h : Config.memSize ≤ s.pc.toNat) :
    step s = .next (s.takeFault (.memOob s.pc)) := by
  simp only [step_of_active ha, State.bytesFrom_of_ge h, decode_nil]

/-- No instruction writes IR (R36). -/
theorem Completes.ir_eq (h : Completes s i t) : t.ir = s.ir := by
  cases h <;> rfl

/-- The fetch of the instruction at the pc leaves the byte at the pc in IR. -/
theorem State.AtPc.afterFetch_ir (h : s.AtPc i) : (s.afterFetch i).ir = s.byteAt s.pc.toNat :=
  Laws.byte_of_opcodeMap h.opcode.2

/-- A step that takes no fault has fetched its opcode byte into IR, recognised or not. -/
theorem step_ir (ha : s.Active) (hs : step s = .next t) (hf : t.run ≠ .faulted) :
    t.ir = s.byteAt s.pc.toNat := by
  rcases step_cases ha with
    ⟨i, u, hi, hc, -, he⟩ | ⟨i, r, -, -, he⟩ | ⟨b, hd, he⟩ | ⟨-, he⟩ | ⟨b, -, he⟩ <;>
    (rw [he] at hs; cases hs)
  · exact hc.ir_eq.trans hi.afterFetch_ir
  case inr.inr.inl =>
    obtain ⟨-, hb, -⟩ := unknownOpcode_at hd
    exact hb.symm
  all_goals exact absurd rfl hf

/-- Settles O6: the two results of the opcode fetch, `step_of_pc_outside` and `step_ir`. -/
theorem opcodeFetchFaultsOrSetsIr : Obligations.OpcodeFetchFaultsOrSetsIr :=
  fun _ ha => ⟨step_of_pc_outside ha, fun _ _ hs hf => step_ir ha hs hf⟩

end Sys2Proof.Machine
end

section
/-! Decoding and encoding (spec/30_encoding.md), and O1 to O3. -/

namespace Sys2Proof.Laws

/-- The encoding, by the operation's operand count. -/
theorem encode_instr (o : Op) (a b : Byte) :
    encode (o.instr a b) = o.byte :: [a, b].take (operandCount o.byte) := by
  rw [encode, instr_op, instr_operands]

theorem decode_encode (i : Instr) (rest : List Byte) : decode (encode i ++ rest) = .ok (i, rest) := by
  obtain ⟨o, a, b, rfl⟩ : ∃ o a b, i = Op.instr o a b := ⟨i.op, _, _, (op_instr i 0 0).symm⟩
  have ho := opcodeMap_byte o
  have h2 := operandCount_le_two o
  rw [encode_instr]
  rcases hk : operandCount o.byte with _ | _ | _ | n
  · rw [instr_count_zero hk]
    exact Machine.decode_count_zero ho hk rest
  · rw [instr_count_one hk]
    exact Machine.decode_count_one ho hk a rest
  · exact Machine.decode_count_two ho hk a b rest
  · omega

/-- What the decoder reads is the encoding of its answer: the opcode byte is the operation's, and the
operand bytes are as many as its count field says. -/
theorem encode_of_decode {bs rest : List Byte} {i : Instr} (h : decode bs = .ok (i, rest)) :
    bs = encode i ++ rest := by
  cases bs with
  | nil => cases h
  | cons b bs =>
    cases ho : opcodeMap b with
    | none => rw [Machine.decode_unknown ho] at h; cases h
    | some o =>
      have hb := byte_of_opcodeMap ho
      simp only [decode, ho] at h
      split at h <;> cases h
      all_goals simp_all [encode_instr]

/-- Settles O1: `encode_of_decode` one way, `decode_encode` the other. -/
theorem decodeInvertsEncode : Obligations.DecodeInvertsEncode := by
  intro bs i rest
  exact ⟨encode_of_decode, fun h => h ▸ decode_encode i rest⟩

/-- Settles O2: the decoder run on each word. -/
theorem sampleWordsDecode : Obligations.SampleWordsDecode := by
  refine ⟨?_, ?_, ?_, ?_, ?_, ?_, ?_, ?_, ?_⟩ <;> decide

theorem byte_injective {o o' : Op} (h : o.byte = o'.byte) : o = o' :=
  Option.some.inj ((opcodeMap_byte o).symm.trans (h ▸ opcodeMap_byte o'))

/-- No operation has three operand bytes, so no byte with count field 3 is an operation's. -/
theorem opcodeMap_of_count_three {b : Byte} (h : operandCount b = 3) : opcodeMap b = none := by
  cases ho : opcodeMap b with
  | none => rfl
  | some o =>
    have h2 := operandCount_le_two o
    rw [byte_of_opcodeMap ho] at h2
    omega

/-- Settles O3: the three source rows by evaluation, the rest from the laws of the opcode map. -/
theorem opcodeMapKeepsItsConstraints : Obligations.OpcodeMapKeepsItsConstraints :=
  ⟨by decide, by decide, by decide, operandCount_byte, fun _ _ => byte_injective,
    fun _ _ => opcodeMap_eq_some_iff, fun _ => opcodeMap_of_count_three⟩

end Sys2Proof.Laws
end

section
/-! What a step does, from what stands at the pc: the converse of `step_cases`; and O4, O5 and O7. -/

namespace Sys2Proof.Machine

variable {s t : State} {i : Instr} {r : Raise} {o : Op}

/-- The step of the instruction at the pc. -/
theorem State.AtPc.step_eq (hi : s.AtPc i) (ha : s.Active) :
    step s = commit s (exec i (s.afterFetch i)) := by
  obtain ⟨rest, hd⟩ := hi
  simp only [step_of_active ha, hd]

theorem Completes.not_faulted (h : Completes s i t) (hr : s.run ≠ .faulted) : t.run ≠ .faulted := by
  rcases h.run_eq with e | ⟨-, e⟩
  · rwa [e]
  · simp [e]

theorem State.Active.not_faulted (ha : s.Active) : s.run ≠ .faulted := by
  simp [ha.1]

theorem State.AtPc.step_of_completes (hi : s.AtPc i) (ha : s.Active)
    (hc : Completes (s.afterFetch i) i t) : step s = .next t := by
  rw [hi.step_eq ha, hc.exec_eq, commit_next_of_not_faulted (hc.not_faulted ha.not_faulted)]

theorem State.AtPc.step_of_raises (hi : s.AtPc i) (ha : s.Active)
    (hr : Raises (s.afterFetch i) i r) : step s = .next (s.takeFault r) := by
  rw [hi.step_eq ha, hr.exec_eq, commit_takeFault]

/-- The state after the byte at the pc was fetched, reported and skipped (R83, R85). -/
def State.afterUnknown (s : State) : State :=
  skipUnknown (s.byteAt s.pc.toNat) ((s.setTrace s.pc (s.byteAt s.pc.toNat)).setIr (s.byteAt s.pc.toNat))

theorem step_of_unknown (ha : s.Active) (hpc : s.pc.toNat < Config.memSize)
    (h : opcodeMap (s.byteAt s.pc.toNat) = none) : step s = .next s.afterUnknown := by
  simp only [step_of_active ha, State.bytesFrom_of_lt hpc, decode_unknown h, State.afterUnknown]

/-- R61, R86: a recognised opcode whose operand bytes are in memory makes, with them, the instruction
at the pc. -/
theorem atPc_of_opcode (h : opcodeMap (s.byteAt s.pc.toNat) = some o)
    (hf : s.pc.toNat + operandCount o.byte < Config.memSize) :
    s.AtPc (o.instr (s.byteAt (s.pc.toNat + 1)) (s.byteAt (s.pc.toNat + 2))) := by
  have hb := Laws.byte_of_opcodeMap h
  have h2 := Laws.operandCount_le_two o
  rw [State.AtPc, State.bytesFrom_of_lt (by omega)]
  rcases hk : operandCount o.byte with _ | _ | _ | n
  · rw [decode_count_zero h (hb ▸ hk), Laws.instr_count_zero hk (s.byteAt _)]
    exact ⟨_, rfl⟩
  · rw [State.bytesFrom_of_lt (by omega), decode_count_one h (hb ▸ hk),
      Laws.instr_count_one hk _ (s.byteAt _)]
    exact ⟨_, rfl⟩
  · rw [State.bytesFrom_of_lt (by omega), State.bytesFrom_of_lt (by omega),
      decode_count_two h (hb ▸ hk)]
    exact ⟨_, rfl⟩
  · omega

/-- R86: a recognised opcode whose operand bytes do not all fit faults at the first address that is no
cell's. -/
theorem step_of_missing (ha : s.Active) (hpc : s.pc.toNat < Config.memSize)
    (h : opcodeMap (s.byteAt s.pc.toNat) = some o)
    (hf : Config.memSize ≤ s.pc.toNat + operandCount o.byte) :
    step s = .next (s.takeFault (.memOob (BitVec.ofNat 9 Config.memSize))) := by
  have hb := Laws.byte_of_opcodeMap h
  have h2 := Laws.operandCount_le_two o
  rw [step_of_active ha, State.bytesFrom_of_lt hpc]
  rcases hk : operandCount o.byte with _ | _ | _ | n
  · omega
  · rw [State.bytesFrom_of_ge (by omega), decode_count_one_nil h (hb ▸ hk)]
  · rcases Nat.lt_or_ge (s.pc.toNat + 1) Config.memSize with h1 | h1
    · rw [State.bytesFrom_of_lt h1, State.bytesFrom_of_ge (by omega),
        decode_count_two_one h (hb ▸ hk)]
    · rw [State.bytesFrom_of_ge h1, decode_count_two_nil h (hb ▸ hk)]
  · omega

/-- `StepRaises s r`: the step that begins in `s` raises `r`, in its fetch or in its instruction. -/
inductive StepRaises (s : State) : Raise → Prop where
  | opcode (h : Config.memSize ≤ s.pc.toNat) : StepRaises s (.memOob s.pc)
  | operand (o : Op) (hpc : s.pc.toNat < Config.memSize) (h : opcodeMap (s.byteAt s.pc.toNat) = some o)
    (hf : Config.memSize ≤ s.pc.toNat + operandCount o.byte) :
    StepRaises s (.memOob (BitVec.ofNat 9 Config.memSize))
  | instr (i : Instr) (r : Raise) (hi : s.AtPc i) (hr : Raises (s.afterFetch i) i r) : StepRaises s r

theorem StepRaises.step_eq (h : StepRaises s r) (ha : s.Active) : step s = .next (s.takeFault r) := by
  cases h with
  | opcode h => exact step_of_pc_outside ha h
  | operand o hpc h hf => exact step_of_missing ha hpc h hf
  | instr i r hi hr => exact hi.step_of_raises ha hr

/-- All that an active step can do: it completes the instruction at the pc, skips an unrecognised
opcode, or takes a fault. -/
theorem step_outcomes (ha : s.Active) (hs : step s = .next t) :
    (∃ i, s.AtPc i ∧ Completes (s.afterFetch i) i t) ∨
    (s.pc.toNat < Config.memSize ∧ opcodeMap (s.byteAt s.pc.toNat) = none ∧ t = s.afterUnknown) ∨
    (∃ r, StepRaises s r ∧ t = s.takeFault r) := by
  rcases step_cases ha with
    ⟨i, u, hi, hc, -, he⟩ | ⟨i, r, hi, hr, he⟩ | ⟨b, hd, he⟩ | ⟨hpc, he⟩ | ⟨b, hd, he⟩ <;>
    (rw [he] at hs; cases hs)
  · exact .inl ⟨i, hi, hc⟩
  · exact .inr (.inr ⟨r, .instr i r hi hr, rfl⟩)
  · obtain ⟨hpc, rfl, h⟩ := unknownOpcode_at hd
    exact .inr (.inl ⟨hpc, h, rfl⟩)
  · exact .inr (.inr ⟨_, .opcode hpc, rfl⟩)
  · obtain ⟨hpc, rfl, o, h, hf⟩ := missingOperand_at hd
    exact .inr (.inr ⟨_, .operand o hpc h hf, rfl⟩)

/-- Settles O4: an instruction always has a next state, and `commit` keeps it or drops what it staged. -/
theorem stepRunsTheDecodedInstruction : Obligations.StepRunsTheDecodedInstruction := by
  intro s i ha hi
  obtain ⟨t, ht⟩ := exec_next i (s.afterFetch i)
  rw [hi.step_eq ha, ht]
  refine ⟨t, rfl, commit_next_of_not_faulted, fun hf => ?_⟩
  rw [commit, if_pos hf, hf]

/-- Settles O5: `atPc_of_opcode`, with the operand bytes by the operation's count. -/
theorem operandsFollowTheOpcode : Obligations.OperandsFollowTheOpcode := by
  intro s o h hf
  refine ⟨_, atPc_of_opcode h hf, Laws.instr_op .., ?_⟩
  rw [Laws.instr_operands, List.map_take]
  rfl

/-- Settles O7: `step_of_unknown`; the last cell's address plus 1 is still an address. -/
theorem unknownOpcodeIsReportedAndSkipped : Obligations.UnknownOpcodeIsReportedAndSkipped :=
  fun _ ha hpc h => ⟨Addr.toNat_add_small (k := 1) hpc (by omega), step_of_unknown ha hpc h⟩

end Sys2Proof.Machine
end

section
/-! What a completed instruction changes, one state element at a time (spec/10_state.md,
spec/20_memory.md section 1); and O38 to O40. -/

namespace Sys2Proof.Machine

variable {s t : State} {i : Instr}

/-- An instruction that answers a state not `Faulted` has completed. -/
theorem completes_of_exec (h : exec i s = .next t) (hf : t.run ≠ .faulted) : Completes s i t := by
  rcases exec_cases i s with ⟨u, hc, he⟩ | ⟨r, -, he⟩ <;> (rw [he] at h; cases h)
  · exact hc
  · exact absurd rfl hf

theorem Completes.faultCause_eq (h : Completes s i t) : t.faultCause = s.faultCause := by
  cases h <;> rfl

theorem Completes.faultInfo_eq (h : Completes s i t) : t.faultInfo = s.faultInfo := by
  cases h <;> rfl

theorem Completes.reports_eq (h : Completes s i t) : t.reports = s.reports := by
  cases h <;> rfl

theorem Completes.resetHeld_eq (h : Completes s i t) : t.resetHeld = s.resetHeld := by
  cases h <;> rfl

/-- R102: PRN delivers its register's value, and nothing else delivers one. -/
theorem Completes.out_eq (h : Completes s i t) :
    t.out = s.out ∨ ∃ ra, ∃ h : ra.toNat < Config.numRegs,
      i = .prn ra ∧ t.out = s.out ++ [s.reg ⟨ra.toNat, h⟩] := by
  cases h with
  | prn ra h => exact .inr ⟨ra, h, rfl, rfl⟩
  | _ => exact .inl rfl

/-- R59: only the four stack accesses write MAR and MDR, and MAR then holds a cell's address. -/
theorem Completes.trace_eq (h : Completes s i t) :
    (t.mar = s.mar ∧ t.mdr = s.mdr) ∨
      (t.mar.toNat < Config.memSize ∧ ((∃ ra, i = .push ra ∨ i = .pop ra ∨ i = .call ra) ∨ i = .ret)) := by
  cases h with
  | push ra _ ha => exact .inr ⟨ha, .inl ⟨ra, .inl rfl⟩⟩
  | pop ra _ ha => exact .inr ⟨ha, .inl ⟨ra, .inr (.inl rfl)⟩⟩
  | call ra _ ha => exact .inr ⟨ha, .inl ⟨ra, .inr (.inr rfl)⟩⟩
  | ret ha => exact .inr ⟨ha, .inr rfl⟩
  | _ => exact .inl ⟨rfl, rfl⟩

/-- R40, R131, R143: PUSH and CALL store one byte at the decremented SP, and nothing else stores one. -/
theorem Completes.mem_eq (h : Completes s i t) :
    t.mem = s.mem ∨ ∃ ra v, (i = .push ra ∨ i = .call ra) ∧
      s.decSp.spAddr.toNat < Config.memSize ∧ t.mem = s.mem.write s.decSp.spAddr.toNat v := by
  cases h with
  | push ra _ ha => exact .inr ⟨ra, _, .inl rfl, ha, rfl⟩
  | call ra _ ha => exact .inr ⟨ra, _, .inr rfl, ha, rfl⟩
  | _ => exact .inl rfl

theorem State.reg_setReg_of_val_ne (s : State) {j k : Fin Config.numRegs} (v : Byte)
    (h : j.val ≠ k.val) : (s.setReg k v).reg j = s.reg j :=
  s.reg_setReg_of_ne v fun e => h (congrArg Fin.val e.symm)

/-- R22: a register that is no destination of the instruction keeps its value. -/
theorem Completes.reg_eq (h : Completes s i t) {j : Fin Config.numRegs} (hj : j.val ∉ i.written) :
    t.reg j = s.reg j := by
  cases h with
  | hlt | prn | cmp | jmp | jeqTaken | jeqPast | jneTaken | jnePast => rfl
  | push | call | ret =>
    simp only [Instr.written, List.mem_singleton] at hj
    exact s.reg_setReg_of_val_ne _ hj
  | pop ra h ha =>
    simp only [Instr.written, List.mem_cons, List.not_mem_nil, or_false, not_or] at hj
    obtain ⟨hra, hsp⟩ := hj
    exact (State.reg_setReg_of_val_ne _ _ hsp).trans (s.reg_setReg_of_val_ne _ hra)
  | _ =>
    simp only [Instr.written, List.mem_singleton] at hj
    exact s.reg_setReg_of_val_ne _ hj

/-- Settles O38: one lemma for each state element. -/
theorem eachInstructionKeepsItsFrame : Obligations.EachInstructionKeepsItsFrame := by
  intro i s t hx hf
  have hc := completes_of_exec hx hf
  refine ⟨fun j => hc.reg_eq, fun hn => ?_, fun hn => ?_, fun hn => ?_, fun hn hr => ?_,
    hc.faultCause_eq, hc.faultInfo_eq, hc.ir_eq, hc.reports_eq, hc.resetHeld_eq⟩
  · exact hc.fl_eq.resolve_right fun ⟨ra, rb, _, _, e, _⟩ => hn ra rb e
  · exact hc.run_eq.resolve_right fun ⟨e, _⟩ => hn e
  · exact hc.out_eq.resolve_right fun ⟨ra, _, e, _⟩ => hn ra e
  · refine hc.trace_eq.resolve_right ?_
    rintro ⟨-, ⟨ra, e⟩ | e⟩
    · obtain ⟨h1, h2, h3⟩ := hn ra
      exact e.elim h1 (·.elim h2 h3)
    · exact hr e

/-- Settles O39: an instruction that stores nothing leaves memory, and so does a fault. -/
theorem loadsAndRegisterFormsStoreNothing : Obligations.LoadsAndRegisterFormsStoreNothing := by
  intro i s t hn hx a
  suffices h : t.mem = s.mem by rw [State.byteAt, h, State.byteAt]
  rcases exec_cases i s with ⟨u, hc, he⟩ | ⟨r, -, he⟩ <;> (rw [he] at hx; cases hx)
  · refine hc.mem_eq.resolve_right ?_
    rintro ⟨ra, v, e, -, -⟩
    exact e.elim (hn ra).1 (hn ra).2
  · rfl

theorem returnByte_toNat (s : State) : (returnByte s).toNat = (s.pc.toNat + 2) % 256 := by
  simp only [returnByte, BitVec.toNat_setWidth, BitVec.toNat_add,
    show (2 : Addr).toNat = 2 from rfl]
  omega

theorem State.decSp_spAddr_toNat (s : State) : s.decSp.spAddr.toNat = (s.sp - 1).toNat := by
  rw [State.spAddr_toNat, State.decSp_sp]

/-- What memory reads as after a store at the decremented SP. -/
theorem State.byteAt_of_stored {v : Byte} (hm : s.mem.wf = true)
    (ht : t.mem = s.mem.write s.decSp.spAddr.toNat v) :
    t.byteAt (s.sp - 1).toNat = v ∧ ∀ a, a ≠ (s.sp - 1).toNat → t.byteAt a = s.byteAt a := by
  rw [State.decSp_spAddr_toNat] at ht
  simp only [State.byteAt, ht]
  exact ⟨Memory.read_write_self hm _ v, fun a ha => Memory.read_write_of_ne hm v ha.symm⟩

/-- Settles O40: a completed PUSH or CALL has written the cell, and a fault has left memory. -/
theorem pushAndCallStoreOneByte : Obligations.PushAndCallStoreOneByte := by
  rintro ra i s t hi hm hx a rfl
  rw [State.decSp_spAddr_toNat]
  rcases exec_cases i s with ⟨u, hc, he⟩ | ⟨r, -, he⟩ <;> (rw [he] at hx; cases hx)
  · refine ⟨fun b hb => ?_, fun hr hf => absurd hf (hc.not_faulted hr), ?_, ?_⟩
    · rcases hc.mem_eq with e | ⟨-, v, -, -, e⟩
      · rw [State.byteAt, e, State.byteAt]
      · exact (State.byteAt_of_stored hm e).2 b hb
    · rintro - - rfl
      cases hc with
      | push _ h => exact ⟨h, (State.byteAt_of_stored hm rfl).1⟩
    · rintro - - rfl
      cases hc with
      | call => exact (congrArg BitVec.toNat (State.byteAt_of_stored hm rfl).1).trans (returnByte_toNat s)
  · exact ⟨fun _ _ => rfl, fun _ _ => rfl, fun _ hf => absurd rfl hf, fun _ hf => absurd rfl hf⟩

end Sys2Proof.Machine
end


section
/-! Hidden state (spec/10_state.md R31, R36, R37; spec/20_memory.md section 7), and O13: replacing all
that no program can see commutes with `Completes`, `Raises` and `step`. -/

namespace Sys2Proof.Machine

/-- What `State.ProgramEq` leaves open: FL.G, FL.L, IR, MAR, MDR and the two port records. -/
structure Hidden where
  g : Bool
  l : Bool
  ir : Byte
  mar : Addr
  mdr : Byte
  out : List Byte
  reports : List Report

def State.setHidden (s : State) (h : Hidden) : State :=
  { s with fl := ⟨s.fl.e, h.g, h.l⟩, ir := h.ir, mar := h.mar, mdr := h.mdr, out := h.out, reports := h.reports }

variable {s t : State} {h h' : Hidden} {i : Instr} {r : Raise}

theorem State.programEq_setHidden (s : State) (h : Hidden) : s.ProgramEq (s.setHidden h) :=
  ⟨rfl, rfl, rfl, rfl, rfl, rfl, rfl, rfl⟩

theorem State.ProgramEq.exists_setHidden {s' : State} (he : s.ProgramEq s') :
    ∃ h, s' = s.setHidden h := by
  obtain ⟨hregs, hpc, hfl, hrun, hcause, hinfo, hmem, hheld⟩ := he
  refine ⟨⟨s'.fl.g, s'.fl.l, s'.ir, s'.mar, s'.mdr, s'.out, s'.reports⟩, ?_⟩
  simp only [State.setHidden, hregs, hpc, hfl, hrun, hcause, hinfo, hmem, hheld]

/-- From `s` to `t`, and in the hidden parts from `h` to `h'`, the ports deliver the same events. -/
structure SameEvents (s t : State) (h h' : Hidden) : Prop where
  out : ∃ vs, t.out = s.out ++ vs ∧ h'.out = h.out ++ vs
  reports : ∃ rs, t.reports = s.reports ++ rs ∧ h'.reports = h.reports ++ rs

theorem SameEvents.of_silent (ho : t.out = s.out) (hr : t.reports = s.reports)
    (ho' : h'.out = h.out) (hr' : h'.reports = h.reports) : SameEvents s t h h' :=
  ⟨⟨[], by simp [ho, ho']⟩, ⟨[], by simp [hr, hr']⟩⟩

/-- The hidden parts after a stack access, which writes MAR and MDR (R59). -/
def Hidden.setTrace (h : Hidden) (a : Addr) (b : Byte) : Hidden := { h with mar := a, mdr := b }

theorem Completes.setHidden (hc : Completes s i t) (h : Hidden) :
    ∃ h', Completes (s.setHidden h) i (t.setHidden h') ∧ SameEvents s t h h' := by
  cases hc with
  | prn ra hr =>
    exact ⟨{ h with out := h.out ++ [_] }, .prn ra hr, ⟨[_], rfl, rfl⟩, ⟨[], by simp [State.autoAdvance]⟩⟩
  | cmp ra rb ha hb => exact ⟨{ h with g := _, l := _ }, .cmp ra rb ha hb, .of_silent rfl rfl rfl rfl⟩
  | jeqTaken ra he hr => exact ⟨h, .jeqTaken (s := s.setHidden h) ra he hr, .of_silent rfl rfl rfl rfl⟩
  | jeqPast ra he => exact ⟨h, .jeqPast (s := s.setHidden h) ra he, .of_silent rfl rfl rfl rfl⟩
  | jneTaken ra he hr => exact ⟨h, .jneTaken (s := s.setHidden h) ra he hr, .of_silent rfl rfl rfl rfl⟩
  | jnePast ra he => exact ⟨h, .jnePast (s := s.setHidden h) ra he, .of_silent rfl rfl rfl rfl⟩
  | push ra hr ha =>
    exact ⟨h.setTrace s.decSp.spAddr (s.decSp.reg ⟨ra.toNat, hr⟩), .push ra hr ha, .of_silent rfl rfl rfl rfl⟩
  | pop ra hr ha =>
    exact ⟨h.setTrace s.spAddr (s.byteAt s.spAddr.toNat), .pop ra hr ha, .of_silent rfl rfl rfl rfl⟩
  | call ra hr ha =>
    exact ⟨h.setTrace s.decSp.spAddr (returnByte s), .call ra hr ha, .of_silent rfl rfl rfl rfl⟩
  | ret ha =>
    exact ⟨h.setTrace s.spAddr (s.byteAt s.spAddr.toNat), .ret ha, .of_silent rfl rfl rfl rfl⟩
  | _ => exact ⟨h, by constructor <;> assumption, .of_silent rfl rfl rfl rfl⟩

theorem Raises.setHidden (hr : Raises s i r) (h : Hidden) : Raises (s.setHidden h) i r := by
  cases hr with
  | index _ k hk hb => exact .index i k hk hb
  | _ => constructor <;> assumption

/-- The hidden parts after the fetch of `i`: IR, MAR and MDR are overwritten, whatever they held. -/
def Hidden.afterFetch (h : Hidden) (s : State) (i : Instr) : Hidden :=
  { h with ir := (s.afterFetch i).ir, mar := (s.afterFetch i).mar, mdr := (s.afterFetch i).mdr }

theorem State.afterFetch_setHidden (s : State) (i : Instr) (h : Hidden) :
    (s.setHidden h).afterFetch i = (s.afterFetch i).setHidden (h.afterFetch s i) := rfl

/-- The hidden parts after an unrecognised opcode is reported. -/
def Hidden.report (h : Hidden) (s : State) : Hidden :=
  { h with
    ir := s.byteAt s.pc.toNat
    mar := s.pc
    mdr := s.byteAt s.pc.toNat
    reports := h.reports ++ [⟨s.pc, s.byteAt s.pc.toNat⟩] }

theorem StepRaises.setHidden (hr : StepRaises s r) (h : Hidden) : StepRaises (s.setHidden h) r := by
  cases hr with
  | opcode hpc => exact .opcode (s := s.setHidden h) hpc
  | operand o hpc ho hf => exact .operand o hpc ho hf
  | instr i r hi hr =>
    refine .instr i r hi ?_
    rw [State.afterFetch_setHidden]
    exact hr.setHidden _

theorem step_setHidden (hs : step s = .next t) (h : Hidden) :
    ∃ h', step (s.setHidden h) = .next (t.setHidden h') ∧ SameEvents s t h h' := by
  by_cases ha : s.Active
  · have ha' : (s.setHidden h).Active := ha
    rcases step_outcomes ha hs with ⟨i, hi, hc⟩ | ⟨hpc, ho, rfl⟩ | ⟨r, hr, rfl⟩
    · have hi' : (s.setHidden h).AtPc i := hi
      obtain ⟨h', hc', hv⟩ := hc.setHidden (h.afterFetch s i)
      rw [← State.afterFetch_setHidden] at hc'
      exact ⟨h', hi'.step_of_completes ha' hc', hv.out, hv.reports⟩
    · refine ⟨h.report s, step_of_unknown ha' hpc ho, ⟨[], ?_⟩, ⟨[_], rfl, rfl⟩⟩
      simp [State.afterUnknown, skipUnknown, Hidden.report]
    · exact ⟨h, (hr.setHidden h).step_eq ha', .of_silent rfl rfl rfl rfl⟩
  · rw [step_of_not_active ha] at hs
    cases hs
    exact ⟨h, step_of_not_active (s := s.setHidden h) ha, .of_silent rfl rfl rfl rfl⟩

/-- Settles O13: the second state is the first with its hidden parts replaced. -/
theorem hiddenStateNeverSteersAProgram : Obligations.HiddenStateNeverSteersAProgram := by
  intro s s' t t' he hs hs'
  obtain ⟨h, rfl⟩ := he.exists_setHidden
  obtain ⟨h', hu, hv⟩ := step_setHidden hs h
  obtain rfl : t.setHidden h' = t' := Host.Outcome.next.inj (hu.symm.trans hs')
  exact ⟨t.programEq_setHidden h', hv.out, hv.reports⟩

end Sys2Proof.Machine
end

section
/-! The run-state and the fault record over a step (spec/40_execution_cycle.md section 1,
spec/60_exceptions.md section 2), and O9 and O10. -/

namespace Sys2Proof.Machine

variable {s t : State} {i : Instr}

theorem State.AtPc.step_hlt (hi : s.AtPc .hlt) (ha : s.Active) :
    step s = .next ((s.afterFetch .hlt).setRun .halted) := hi.step_of_completes ha .hlt

/-- Settles O9: HLT halts, and the other outcomes of a step end in `Running` or `Faulted`. -/
theorem onlyHltHalts : Obligations.OnlyHltHalts := by
  intro s t ha hs
  have halts (hi : s.AtPc .hlt) : t.run = .halted :=
    congrArg State.run (Host.Outcome.next.inj (hs.symm.trans (hi.step_hlt ha)))
  suffices h : (t.run = .halted ∧ s.AtPc .hlt) ∨ t.run = .running ∨ t.run = .faulted by
    rcases h with ⟨h, hi⟩ | h | h
    · exact ⟨iff_of_true h hi, .inr (.inl h)⟩
    · exact ⟨⟨fun h' => (by cases h.symm.trans h'), halts⟩, .inl h⟩
    · exact ⟨⟨fun h' => (by cases h.symm.trans h'), halts⟩, .inr (.inr h)⟩
  rcases step_outcomes ha hs with ⟨i, hi, hc⟩ | ⟨-, -, rfl⟩ | ⟨r, -, rfl⟩
  · rcases hc.run_eq with e | ⟨rfl, e⟩
    · exact .inr (.inl (e.trans ha.1))
    · exact .inl ⟨e, hi⟩
  · exact .inr (.inl ha.1)
  · exact .inr (.inr rfl)

/-- A step that ends in `Faulted` took a fault over the state it began in. -/
theorem step_faulted (ha : s.Active) (hs : step s = .next t) (hf : t.run = .faulted) :
    ∃ r, StepRaises s r ∧ t = s.takeFault r := by
  rcases step_outcomes ha hs with ⟨i, hi, hc⟩ | ⟨-, -, rfl⟩ | h
  · exact absurd hf (hc.not_faulted ha.not_faulted)
  · cases ha.1.symm.trans hf
  · exact h

theorem Raise.cause_ne_none (r : Raise) : r.cause ≠ .none := by cases r <;> simp [Raise.cause]

/-- Settles O10: `State.takeFault` is the update the statement names. -/
theorem faultsArePrecise : Obligations.FaultsArePrecise := by
  intro s t ha hs hf
  obtain ⟨r, -, rfl⟩ := step_faulted ha hs hf
  exact ⟨r.cause_ne_none, rfl⟩

end Sys2Proof.Machine
end

section
/-! Memory and the ports over a step (spec/20_memory.md section 1, spec/60_exceptions.md section 1), and
O14 and O15. -/

namespace Sys2Proof.Machine

variable {s t : State}

/-- A step that is not the CORE's changes nothing. -/
theorem active_of_step_ne (hs : step s = .next t) (h : t ≠ s) : s.Active := by
  by_contra ha
  rw [step_of_not_active ha] at hs
  cases hs
  exact h rfl

/-- Settles O14: of a step's outcomes only a completed PUSH or CALL writes memory, and only the cell at
the decremented SP. -/
theorem onlyPushAndCallWriteMemory : Obligations.OnlyPushAndCallWriteMemory := by
  intro s t a hm hs hne
  have ha : s.Active := active_of_step_ne hs fun e => hne (e ▸ rfl)
  rcases step_outcomes ha hs with ⟨i, hi, hc⟩ | ⟨-, -, rfl⟩ | ⟨r, -, rfl⟩
  · rcases hc.mem_eq with e | ⟨ra, v, hi', -, e⟩
    · exact absurd (congrArg (Memory.read · a) e) hne
    · have hrun : t.run = .running :=
        (hc.run_eq.resolve_right fun ⟨e, _⟩ => by rcases hi' with rfl | rfl <;> cases e).trans ha.1
      have hat : s.AtPc (.push ra) ∨ s.AtPc (.call ra) := by
        rcases hi' with rfl | rfl
        · exact .inl hi
        · exact .inr hi
      refine ⟨ha, hrun, ⟨ra, hat⟩, ?_⟩
      by_contra h
      exact hne ((State.byteAt_of_stored (s := s.afterFetch i) hm e).2 a h)
  · exact absurd rfl hne
  · exact absurd rfl hne

/-- Settles O15: of a step's outcomes only a completed PRN delivers a value, and only an unrecognised
opcode an event. -/
theorem portsDeliverOnlyPrnAndUnknownOpcodes : Obligations.PortsDeliverOnlyPrnAndUnknownOpcodes := by
  intro s t hs
  constructor
  · intro hne
    have ha : s.Active := active_of_step_ne hs fun e => hne (e ▸ rfl)
    rcases step_outcomes ha hs with ⟨i, hi, hc⟩ | ⟨-, -, rfl⟩ | ⟨r, -, rfl⟩
    · obtain ⟨ra, h, rfl, e⟩ := hc.out_eq.resolve_left hne
      exact ⟨ha, ra, h, hi, e⟩
    · exact absurd rfl hne
    · exact absurd rfl hne
  · intro hne
    have ha : s.Active := active_of_step_ne hs fun e => hne (e ▸ rfl)
    rcases step_outcomes ha hs with ⟨i, hi, hc⟩ | ⟨hpc, ho, rfl⟩ | ⟨r, -, rfl⟩
    · exact absurd hc.reports_eq hne
    · exact ⟨ha, hpc, ho, rfl⟩
    · exact absurd rfl hne

end Sys2Proof.Machine
end

section
/-! The pc over a step (spec/10_state.md section 2, spec/40_execution_cycle.md section 3), and O16. -/

namespace Sys2Proof.Machine

variable {s t : State} {i : Instr}

theorem Addr.toNat_setWidth (b : Byte) : (b.setWidth 9 : Addr).toNat = b.toNat := by
  rw [BitVec.toNat_setWidth]
  omega

/-- R88: the advance past an instruction at a cell's address is exact. -/
theorem State.autoAdvance_pc_toNat {n : Nat} (hn : n ≤ 2) (hpc : s.pc.toNat < Config.memSize) :
    (s.autoAdvance n).pc.toNat = s.pc.toNat + (n + 1) := by
  simp only [Config.memSize] at hpc
  simp only [State.autoAdvance, State.setPc_pc, BitVec.toNat_add, BitVec.toNat_ofNat,
    show (1 : Addr).toNat = 1 from rfl]
  omega

/-- R141, R142: so is the advance past a jump not taken. -/
theorem State.pc_add_two_toNat (hpc : s.pc.toNat < Config.memSize) : (s.pc + 2).toNat = s.pc.toNat + 2 :=
  Addr.toNat_add_small hpc (Nat.le_refl 2)

/-- Settles O16: each outcome's pc is in its state; advances are exact from a cell's address. -/
theorem whereEachStepLeavesThePc : Obligations.WhereEachStepLeavesThePc := by
  intro s t ha hs
  refine ⟨fun hf => ?_, fun hpc ho => ?_, fun i hi hf => ?_⟩
  · obtain ⟨r, -, rfl⟩ := step_faulted ha hs hf
    rfl
  · cases hs.symm.trans (step_of_unknown ha hpc ho)
    exact Addr.toNat_add_small (k := 1) hpc (by omega)
  · obtain ⟨hpc, -⟩ := hi.opcode
    have hc := hi.completes ha hs hf
    have hpc' : (s.afterFetch i).pc.toNat < Config.memSize := hpc
    cases hc with
    | hlt => rfl
    | prn | not | push | pop => exact State.autoAdvance_pc_toNat (n := 1) (by omega) hpc
    | jmp ra h => exact ⟨h, Addr.toNat_setWidth _⟩
    | jeqTaken ra he h =>
      exact (if_pos he).mpr ⟨h, Addr.toNat_setWidth _⟩
    | jeqPast ra he =>
      exact (if_neg (Bool.not_eq_true _ ▸ he)).mpr (State.pc_add_two_toNat hpc)
    | jneTaken ra he h =>
      exact (if_neg (Bool.not_eq_true _ ▸ he)).mpr ⟨h, Addr.toNat_setWidth _⟩
    | jnePast ra he =>
      exact (if_pos he).mpr (State.pc_add_two_toNat hpc)
    | call ra h ha => exact ⟨h, Addr.toNat_setWidth _⟩
    | ret ha =>
      refine (Addr.toNat_setWidth _).trans ?_
      rw [State.spAddr_toNat]
      rfl
    | _ => exact State.autoAdvance_pc_toNat (n := 2) (by omega) hpc

end Sys2Proof.Machine
end

section
/-! The legal states (Sys2Proof/Safety.lean), and O17 and O18: each part of `State.Legal` is kept by
what completes, by a skipped opcode and by a fault. -/

namespace Sys2Proof.Machine

variable {s t : State} {i : Instr} {r : Raise}

theorem Completes.wf (h : Completes s i t) (hm : s.mem.wf = true) : t.mem.wf = true := by
  rcases h.mem_eq with e | ⟨-, v, -, ha, e⟩
  · rwa [e]
  · rw [e]
    exact Memory.wf_write hm v ha

/-- Where a completed instruction leaves the pc: on itself (HLT), past itself, or at a byte's value. -/
theorem Completes.pc_cases (h : Completes s i t) :
    t.pc = s.pc ∨ t.pc = s.pc + 1 + BitVec.ofNat 9 i.operands.length ∨ ∃ b : Byte, t.pc = b.setWidth 9 := by
  cases h with
  | hlt => exact .inl rfl
  | jmp | jeqTaken | jneTaken | call | ret => exact .inr (.inr ⟨_, rfl⟩)
  | jeqPast | jnePast => exact .inr (.inl (BitVec.add_assoc s.pc 1 1).symm)
  | _ => exact .inr (.inl rfl)

/-- R25: an instruction whose bytes are in memory leaves a pc of 0 to 256. -/
theorem Completes.pc_le (h : Completes s i t) (hf : s.pc.toNat + i.operands.length < Config.memSize) :
    t.pc.toNat ≤ 256 := by
  simp only [Config.memSize] at hf
  rcases h.pc_cases with e | e | ⟨b, e⟩ <;> rw [e]
  · omega
  · simp only [BitVec.toNat_add, BitVec.toNat_ofNat, show (1 : Addr).toNat = 1 from rfl]
    omega
  · rw [Addr.toNat_setWidth]
    omega

/-- R32. -/
theorem Completes.flags_count_le (h : Completes s i t) (hf : s.fl.count ≤ 1) : t.fl.count ≤ 1 := by
  rcases h.fl_eq with e | ⟨-, -, va, vb, -, e⟩
  · rwa [e]
  · rw [e]
    rcases compareFlags_one_hot va vb with e | e | e <;> simp [e, Flags.count]

theorem operands_length_le (i : Instr) : i.operands.length ≤ 2 := by
  rw [← Laws.operandCount_byte]
  exact Laws.operandCount_le_two i.op

/-- The last byte fetched is a cell's. -/
theorem State.AtPc.afterFetch_mar_lt (hi : s.AtPc i) : (s.afterFetch i).mar.toNat < Config.memSize := by
  have hf := hi.fits
  calc (s.afterFetch i).mar.toNat
      = s.pc.toNat + i.operands.length := Addr.toNat_add_small (by omega) (operands_length_le i)
    _ < Config.memSize := hf

theorem Completes.mar_lt (h : Completes s i t) (hm : s.mar.toNat < Config.memSize) :
    t.mar.toNat < Config.memSize := by
  rcases h.trace_eq with ⟨e, -⟩ | ⟨e, -⟩
  · rwa [e]
  · exact e

/-- Outside `Faulted` the fault record is legal exactly when it is empty (R34). -/
theorem faultRecordLegal_iff (h : s.run ≠ .faulted) :
    s.FaultRecordLegal ↔ s.faultCause = .none ∧ s.faultInfo = 0 := by
  unfold State.FaultRecordLegal
  cases hc : s.faultCause <;> simp [h]

theorem Completes.record (h : Completes s i t) (hr : s.run ≠ .faulted) (hl : s.FaultRecordLegal) :
    t.FaultRecordLegal := by
  rw [faultRecordLegal_iff (h.not_faulted hr), h.faultCause_eq, h.faultInfo_eq]
  exact (faultRecordLegal_iff hr).1 hl

/-- R35, R151 to R153: what a step raises carries an information its cause can have. -/
theorem StepRaises.record (h : StepRaises s r) : (s.takeFault r).FaultRecordLegal := by
  cases h with
  | opcode h => exact ⟨rfl, h⟩
  | operand => exact ⟨rfl, Nat.le_refl _⟩
  | instr i r hi hr =>
    cases hr with
    | index _ k hk _ =>
      refine ⟨rfl, ?_⟩
      rw [State.takeFault_faultInfo, Raise.info, Addr.toNat_setWidth]
      exact ⟨hk, k.isLt⟩
    | divisor ra rb ha hb _ =>
      refine ⟨rfl, ?_⟩
      rw [State.takeFault_faultInfo, Raise.info, Addr.toNat_setWidth]
      exact hb
    | push _ _ ha | call _ _ ha | pop _ _ ha | ret ha => exact ⟨rfl, ha⟩

theorem State.Active.not_resetHeld {P : Prop} (ha : s.Active) (h : s.resetHeld = true) : P := by
  cases ha.2.symm.trans h

/-- Settles O17: each outcome of a step keeps each part of `State.Legal`. -/
theorem everyStepKeepsTheLegalStates : Obligations.EveryStepKeepsTheLegalStates := by
  intro s t hl hs
  by_cases ha : s.Active
  · have hr := ha.not_faulted
    rcases step_outcomes ha hs with ⟨i, hi, hc⟩ | ⟨hpc, -, rfl⟩ | ⟨r, hr, rfl⟩
    · exact {
        memory := hc.wf hl.memory
        pc := hc.pc_le hi.fits
        flags := hc.flags_count_le hl.flags
        record := hc.record hr hl.record
        mar := hc.mar_lt hi.afterFetch_mar_lt
        reset := fun h => ha.not_resetHeld (hc.resetHeld_eq.symm.trans h) }
    · have hnext : (s.pc + 1).toNat = s.pc.toNat + 1 := Addr.toNat_add_small (k := 1) hpc (by omega)
      exact {
        memory := hl.memory
        pc := (hnext.trans_le hpc).trans (by decide)
        flags := hl.flags
        record := hl.record
        mar := hpc
        reset := fun h => ha.not_resetHeld h }
    · exact {
        memory := hl.memory
        pc := hl.pc
        flags := hl.flags
        record := hr.record
        mar := hl.mar
        reset := fun h => ha.not_resetHeld h }
  · rw [step_of_not_active ha] at hs
    cases hs
    exact hl

theorem State.reset_legal : State.reset.Legal :=
  ⟨rfl, by decide, by decide, ⟨by decide, rfl⟩, by decide, by decide⟩

/-- The host's reset takes every field but memory from the reset state. -/
theorem State.Legal.hostReset (hl : s.Legal) : s.hostReset.Legal :=
  { State.reset_legal with memory := hl.memory, reset := fun _ => rfl }

theorem State.Legal.hostRelease (hl : s.Legal) : s.hostRelease.Legal :=
  { hl with reset := fun h => by cases h }

theorem State.Legal.hostLoad {image : List Byte} (hl : s.Legal) (h : s.hostLoad image = some t) :
    t.Legal := by
  obtain ⟨-, -, rfl⟩ := State.hostLoad_eq_some h
  exact { hl with
    memory := Memory.wf_load hl.memory 0 image
    reset := fun hh => congrArg (State.setMem · _) (hl.reset hh) }

/-- Settles O18: one lemma for each move of the host. -/
theorem resetAndLoadAreLegal : Obligations.ResetAndLoadAreLegal := by
  refine ⟨State.reset_legal, fun m s t hm hl h => ?_⟩
  cases m with
  | idle => exact absurd rfl hm
  | assertReset =>
    cases h
    exact hl.hostReset
  | releaseReset =>
    cases h
    exact hl.hostRelease
  | load image =>
    obtain ⟨u, hu, e⟩ := Option.map_eq_some_iff.1 h
    cases e
    exact hl.hostLoad hu

end Sys2Proof.Machine
end

section
/-! The faults, each at its site (spec/60_exceptions.md section 1, spec/40_execution_cycle.md section 4),
and O19 to O22. -/

namespace Sys2Proof.Machine

variable {s t : State} {i : Instr} {r : Raise}

/-- A step records `MEM_OOB` with address `a` exactly if it raises that fault. -/
theorem step_memOob_iff (ha : s.Active) (hs : step s = .next t) {a : Nat} :
    (t.run = .faulted ∧ t.faultCause = .memOob ∧ t.faultInfo.toNat = a) ↔
      ∃ b : Addr, StepRaises s (.memOob b) ∧ b.toNat = a := by
  constructor
  · rintro ⟨hf, hcause, hinfo⟩
    obtain ⟨r, hr, rfl⟩ := step_faulted ha hs hf
    cases r with
    | memOob b => exact ⟨b, hr, hinfo⟩
    | regOob | divZero => cases hcause
  · rintro ⟨b, hr, rfl⟩
    cases hs.symm.trans (hr.step_eq ha)
    exact ⟨rfl, rfl, rfl⟩

/-- Settles O19: the sites are those of `StepRaises`, and a missing operand is always missing at
`MEM_SIZE`. -/
theorem memoryFaultsExactlyAtItsSites : Obligations.MemoryFaultsExactlyAtItsSites := by
  intro s t hact hs a
  rw [step_memOob_iff hact hs]
  have pushSite (i : Instr) : (s.afterFetch i).decSp.spAddr.toNat = (s.sp - 1).toNat :=
    State.decSp_spAddr_toNat _
  have popSite (i : Instr) : (s.afterFetch i).spAddr.toNat = s.sp.toNat := State.spAddr_toNat _
  constructor
  · rintro ⟨b, hr, rfl⟩
    cases hr with
    | opcode h => exact ⟨h, .inl rfl⟩
    | operand o hpc ho hf =>
      have h2 := Laws.operandCount_le_two o
      refine ⟨Nat.le_refl _, .inr (.inl ⟨hpc, o, ho, ?_⟩)⟩
      simp only [Config.memSize, BitVec.toNat_ofNat] at hpc hf ⊢
      omega
    | instr i _ hi hr =>
      cases hr with
      | push ra h ha => exact ⟨ha, .inr (.inr (.inl ⟨ra, h, .inl hi, pushSite _⟩))⟩
      | call ra h ha => exact ⟨ha, .inr (.inr (.inl ⟨ra, h, .inr hi, pushSite _⟩))⟩
      | pop ra h ha => exact ⟨ha, .inr (.inr (.inr ⟨.inl ⟨ra, h, hi⟩, popSite _⟩))⟩
      | ret ha => exact ⟨ha, .inr (.inr (.inr ⟨.inr hi, popSite _⟩))⟩
  · rintro ⟨ha, rfl | ⟨hpc, o, ho, hsite⟩ | ⟨ra, h, hi | hi, rfl⟩ | ⟨⟨ra, h, hi⟩ | hi, rfl⟩⟩
    · exact ⟨_, .opcode ha, rfl⟩
    · refine ⟨_, .operand o hpc ho ?_, ?_⟩
      · rcases hsite with ⟨hk, rfl⟩ | ⟨hk, hpc1, rfl⟩ <;> omega
      · simp only [Config.memSize, BitVec.toNat_ofNat] at ha hpc hsite ⊢
        omega
    · exact ⟨_, .instr _ _ hi (.push ra h (ha.trans (pushSite _).ge)), pushSite _⟩
    · exact ⟨_, .instr _ _ hi (.call ra h (ha.trans (pushSite _).ge)), pushSite _⟩
    · exact ⟨_, .instr _ _ hi (.pop ra h (ha.trans (popSite _).ge)), popSite _⟩
    · exact ⟨_, .instr _ _ hi (.ret (ha.trans (popSite _).ge)), popSite _⟩

/-- Settles O20: `Raises.divisor` is the only raise with cause `DIV_ZERO`. -/
theorem divideByZeroExactlyAtModZero : Obligations.DivideByZeroExactlyAtModZero := by
  intro s t rb ha hs
  constructor
  · rintro ⟨ra, hi, hra, hrb, hz⟩
    exact Host.Outcome.next.inj (hs.symm.trans (hi.step_of_raises ha (.divisor ra rb hra hrb hz)))
  · rintro ⟨hf, hcause, hinfo⟩
    obtain ⟨r, hr, rfl⟩ := step_faulted ha hs hf
    cases hr with
    | opcode | operand => cases hcause
    | instr i _ hi hr =>
      cases hr with
      | divisor ra rb' hra hrb hz =>
        obtain rfl : rb' = rb :=
          BitVec.eq_of_toNat_eq ((Addr.toNat_setWidth rb').symm.trans hinfo)
        exact ⟨ra, hi, hra, hrb, hz⟩
      | index | push | call | pop | ret => cases hcause

/-- Settles O21: `Raises.index` is the only raise with cause `REG_OOB`, and it names an invalid index. -/
theorem registerFaultsExactlyAtInvalidIndex : Obligations.RegisterFaultsExactlyAtInvalidIndex := by
  intro i s hrun
  constructor
  · intro k hk
    have hbad : Config.numRegs ≤ k.toNat := by
      have h := List.find?_some hk
      rw [Bool.not_eq_true', ← Bool.not_eq_true, validIndex_iff] at h
      exact Nat.le_of_not_lt h
    exact (Raises.index i k hbad hk).exec_eq
  · rintro hall t hx ⟨hf, hcause⟩
    rcases exec_cases i s with ⟨u, hc, he⟩ | ⟨r, hr, he⟩ <;> (rw [he] at hx; cases hx)
    · exact hc.not_faulted hrun hf
    · cases hr with
      | index _ k _ hk =>
        have hv := List.all_eq_true.1 hall k (List.mem_of_find?_eq_some hk)
        have hnv := List.find?_some hk
        simp [hv] at hnv
      | divisor | push | call | pop | ret => cases hcause

/-- The only stack address that is no cell's (R133). -/
theorem State.spAddr_eq_of_sp (h : s.sp = 0xFF) : s.spAddr = 0xFF := by
  rw [State.spAddr, h]
  rfl

/-- Settles O22: from SP = 0 the decrement wraps to 0xFF, where PUSH and CALL raise; POP and RET raise
at 0xFF itself. -/
theorem stackFaultsKeepTheStackPointer : Obligations.StackFaultsKeepTheStackPointer := by
  intro ra s h
  refine ⟨fun hsp => ?_, fun hsp => ?_⟩
  · have haddr : s.decSp.spAddr = 0xFF := State.spAddr_eq_of_sp (by rw [State.decSp_sp, hsp]; rfl)
    have hout : Config.memSize ≤ s.decSp.spAddr.toNat := by rw [haddr]; decide
    rw [(Raises.push ra h hout).exec_eq, (Raises.call ra h hout).exec_eq, haddr]
    exact ⟨rfl, rfl⟩
  · have haddr : s.spAddr = 0xFF := State.spAddr_eq_of_sp hsp
    have hout : Config.memSize ≤ s.spAddr.toNat := by rw [haddr]; decide
    rw [(Raises.pop ra h hout).exec_eq, (Raises.ret hout).exec_eq, haddr]
    exact ⟨rfl, rfl⟩

end Sys2Proof.Machine
end

section
/-! The register forms as record updates (spec/41_data_move_io.md, spec/42_alu.md), and O23 to O31. -/

namespace Sys2Proof.Machine

variable {s : State} {ra rb : Byte}

/-- R88: past a one-operand instruction. -/
theorem State.autoAdvance_one (s : State) : s.autoAdvance 1 = s.setPc (s.pc + 2) :=
  congrArg s.setPc (BitVec.add_assoc s.pc 1 1)

/-- R88: past a two-operand instruction. -/
theorem State.autoAdvance_two (s : State) : s.autoAdvance 2 = s.setPc (s.pc + 3) :=
  congrArg s.setPc (BitVec.add_assoc s.pc 1 2)

/-- R110: an ALU instruction writes its reduced result and advances, and changes nothing else. -/
theorem State.aluResult_eq (f : Byte → Byte → Nat) (ha : ra.toNat < Config.numRegs)
    (hb : rb.toNat < Config.numRegs) {v : Byte}
    (hv : BitVec.ofNat 8 (f (s.reg ⟨ra.toNat, ha⟩) (s.reg ⟨rb.toNat, hb⟩)) = v) :
    s.aluResult f ra rb ha hb = { s with regs := s.regs.set ra.toNat v ha, pc := s.pc + 3 } := by
  rw [State.aluResult, hv, State.autoAdvance_two]
  rfl

/-- Settles O23: the record update of `Completes.hlt`. -/
theorem hltEntersHalted : Obligations.HltEntersHalted := fun _ => Completes.hlt.exec_eq

/-- Settles O24: the record update of `Completes.ldi`, with the advance written as one sum. -/
theorem ldiLoadsItsImmediate : Obligations.LdiLoadsItsImmediate := by
  intro ra imm s h
  rw [(Completes.ldi ra imm h).exec_eq, State.autoAdvance_two]
  rfl

/-- Settles O25: the record update of `Completes.prn`, with the advance written as one sum. -/
theorem prnEmitsTheRegister : Obligations.PrnEmitsTheRegister := by
  intro ra s h
  rw [(Completes.prn ra h).exec_eq, State.autoAdvance_one]
  rfl

/-- Settles O26: the stored bytes are the exact results reduced by `BitVec.ofNat 8`. -/
theorem addAndMulReduceModulo256 : Obligations.AddAndMulReduceModulo256 := by
  intro ra rb s ha hb
  refine ⟨_, _, BitVec.toNat_ofNat _ 8, BitVec.toNat_ofNat _ 8, ?_, ?_⟩
  · rw [(Completes.add ra rb ha hb).exec_eq, State.aluResult_eq aluAdd ha hb rfl]
    rfl
  · rw [(Completes.mul ra rb ha hb).exec_eq, State.aluResult_eq aluMul ha hb rfl]
    rfl

/-- R121: a remainder fits a byte. -/
theorem ofNat_aluMod_toNat (va vb : Byte) : (BitVec.ofNat 8 (aluMod va vb)).toNat = va.toNat % vb.toNat := by
  have h : va.toNat % vb.toNat ≤ va.toNat := Nat.mod_le _ _
  rw [BitVec.toNat_ofNat, aluMod]
  omega

/-- Settles O27: division with remainder. -/
theorem modLeavesTheRemainder : Obligations.ModLeavesTheRemainder := by
  intro ra rb s ha hb hz
  refine ⟨BitVec.ofNat 8 (aluMod (s.reg ⟨ra.toNat, ha⟩) (s.reg ⟨rb.toNat, hb⟩)), ?_,
    ⟨(s.reg ⟨ra.toNat, ha⟩).toNat / (s.reg ⟨rb.toNat, hb⟩).toNat, ?_⟩, ?_⟩
  · rw [ofNat_aluMod_toNat]
    exact Nat.mod_lt _ (Nat.pos_of_ne_zero fun e => hz (BitVec.eq_of_toNat_eq e))
  · rw [ofNat_aluMod_toNat, Nat.div_add_mod']
  · rw [(Completes.mod ra rb ha hb hz).exec_eq, State.aluResult_eq aluMod ha hb rfl]

/-- Settles O28: `compareFlags` decides the three comparisons of R114. -/
theorem cmpSetsTheFlagsUnsigned : Obligations.CmpSetsTheFlagsUnsigned := by
  intro ra rb s ha hb
  refine ⟨compareFlags (s.reg ⟨ra.toNat, ha⟩) (s.reg ⟨rb.toNat, hb⟩), decide_eq_true_iff,
    decide_eq_true_iff, decide_eq_true_iff, ?_⟩
  rw [(Completes.cmp ra rb ha hb).exec_eq, State.autoAdvance_two]
  rfl

/-! ### The bitwise operations are those of `BitVec` -/

theorem ofNat_aluAnd (va vb : Byte) : BitVec.ofNat 8 (aluAnd va vb) = va &&& vb := by
  rw [aluAnd, ← BitVec.toNat_and, BitVec.ofNat_toNat, BitVec.setWidth_eq]

theorem ofNat_aluOr (va vb : Byte) : BitVec.ofNat 8 (aluOr va vb) = va ||| vb := by
  rw [aluOr, ← BitVec.toNat_or, BitVec.ofNat_toNat, BitVec.setWidth_eq]

theorem ofNat_aluXor (va vb : Byte) : BitVec.ofNat 8 (aluXor va vb) = va ^^^ vb := by
  rw [aluXor, ← BitVec.toNat_xor, BitVec.ofNat_toNat, BitVec.setWidth_eq]

theorem ofNat_aluNot (va : Byte) : BitVec.ofNat 8 (aluNot va) = ~~~va := by
  apply BitVec.eq_of_toNat_eq
  rw [BitVec.toNat_not, BitVec.toNat_ofNat, aluNot]
  omega

/-- Settles O29: the stored bytes are the `BitVec` operations, which act bit by bit. -/
theorem andOrXorActBitByBit : Obligations.AndOrXorActBitByBit := by
  intro ra rb s ha hb
  refine ⟨_, _, _, fun _ => BitVec.getLsbD_and, fun _ => BitVec.getLsbD_or, fun _ => BitVec.getLsbD_xor,
    ?_, ?_, ?_⟩
  · rw [(Completes.and ra rb ha hb).exec_eq, State.aluResult_eq aluAnd ha hb (ofNat_aluAnd _ _)]
  · rw [(Completes.or ra rb ha hb).exec_eq, State.aluResult_eq aluOr ha hb (ofNat_aluOr _ _)]
  · rw [(Completes.xor ra rb ha hb).exec_eq, State.aluResult_eq aluXor ha hb (ofNat_aluXor _ _)]

/-- R118: NOT complements its register and advances by 2. -/
theorem exec_not (h : ra.toNat < Config.numRegs) :
    exec (.not ra) s = .next ((s.setReg ⟨ra.toNat, h⟩ (~~~s.reg ⟨ra.toNat, h⟩)).setPc (s.pc + 2)) := by
  rw [(Completes.not ra h).exec_eq, ofNat_aluNot, State.autoAdvance_one]
  rfl

/-- Writing a register twice, the second time with its first value, changes nothing. -/
theorem State.regs_set_set_reg (s : State) (k : Fin Config.numRegs) (v : Byte) :
    (s.regs.set k v).set k (s.reg k) = s.regs := by
  rw [Vector.set_set]
  exact Vector.set_getElem_self k.isLt

/-- Settles O30: the second complement undoes the first. -/
theorem notInvertsEveryBit : Obligations.NotInvertsEveryBit := by
  intro ra s h
  refine ⟨~~~s.reg ⟨ra.toNat, h⟩, fun k hk => by simp [hk], exec_not h, ?_⟩
  have hreg : State.reg { s with regs := s.regs.set ra.toNat (~~~s.reg ⟨ra.toNat, h⟩) h, pc := s.pc + 2 }
      ⟨ra.toNat, h⟩ = ~~~s.reg ⟨ra.toNat, h⟩ := State.reg_setReg_self s ⟨ra.toNat, h⟩ _
  rw [exec_not h, hreg, BitVec.not_not]
  simp only [State.setReg, State.setPc, State.regs_set_set_reg s ⟨ra.toNat, h⟩, BitVec.add_assoc]
  rfl

/-- R119: a left shift is a product by a power of 2. -/
theorem ofNat_aluShl_toNat (va vb : Byte) :
    (BitVec.ofNat 8 (aluShl va vb)).toNat = va.toNat * 2 ^ vb.toNat % 256 := by
  rw [BitVec.toNat_ofNat, aluShl, Nat.shiftLeft_eq]

/-- R120: a right shift is a quotient by a power of 2, which fits a byte. -/
theorem ofNat_aluShr_toNat (va vb : Byte) :
    (BitVec.ofNat 8 (aluShr va vb)).toNat = va.toNat / 2 ^ vb.toNat := by
  rw [BitVec.toNat_ofNat, aluShr, Nat.shiftRight_eq_div_pow]
  exact Nat.mod_eq_of_lt ((Nat.div_le_self _ _).trans_lt va.isLt)

/-- D30: an amount of 8 or more shifts every bit out to the left. -/
theorem ofNat_aluShl_eq_zero {va vb : Byte} (h : 8 ≤ vb.toNat) : BitVec.ofNat 8 (aluShl va vb) = 0 := by
  apply BitVec.eq_of_toNat_eq
  have hdvd : 256 ∣ va.toNat * 2 ^ vb.toNat := Dvd.dvd.mul_left (pow_dvd_pow 2 h) _
  rw [ofNat_aluShl_toNat]
  exact Nat.mod_eq_zero_of_dvd hdvd

/-- D30: and to the right. -/
theorem ofNat_aluShr_eq_zero {va vb : Byte} (h : 8 ≤ vb.toNat) : BitVec.ofNat 8 (aluShr va vb) = 0 := by
  apply BitVec.eq_of_toNat_eq
  have hpow : 2 ^ 8 ≤ 2 ^ vb.toNat := Nat.pow_le_pow_right (by omega) h
  rw [ofNat_aluShr_toNat]
  exact Nat.div_eq_of_lt (va.isLt.trans_le hpow)

/-- Settles O31: the shifts as a product and a quotient by a power of 2. -/
theorem shiftsUseTheWholeAmount : Obligations.ShiftsUseTheWholeAmount := by
  intro ra rb s ha hb
  refine ⟨_, _, ofNat_aluShl_toNat _ _, ofNat_aluShr_toNat _ _,
    fun h => ⟨ofNat_aluShl_eq_zero h, ofNat_aluShr_eq_zero h⟩, ?_, ?_⟩
  · rw [(Completes.shl ra rb ha hb).exec_eq, State.aluResult_eq aluShl ha hb rfl]
  · rw [(Completes.shr ra rb ha hb).exec_eq, State.aluResult_eq aluShr ha hb rfl]

end Sys2Proof.Machine
end

section
/-! Jumps and the stack forms as record updates (spec/43_stack.md, spec/44_control_flow.md), and O32 to
O37. -/

namespace Sys2Proof.Machine

variable {s : State} {ra : Byte}

/-- R131, R143: what a register reads as after the decrement of SP. -/
theorem State.reg_decSp (h : ra.toNat < Config.numRegs) :
    s.decSp.reg ⟨ra.toNat, h⟩ = if ra = 7 then s.sp - 1 else s.reg ⟨ra.toNat, h⟩ := by
  by_cases h7 : ra = 7
  · subst h7
    exact State.decSp_sp s
  · rw [if_neg h7]
    exact s.reg_setReg_of_val_ne _ fun e => h7 (BitVec.eq_of_toNat_eq e)

/-- R131: from an SP other than 0 the decremented SP is a cell's address. -/
theorem State.decSp_spAddr_lt (hsp : s.sp ≠ 0) : s.decSp.spAddr.toNat < Config.memSize := by
  have h0 : s.sp.toNat ≠ 0 := fun e => hsp (BitVec.eq_of_toNat_eq e)
  rw [State.decSp_spAddr_toNat]
  simp only [Config.memSize, BitVec.toNat_sub, show (1 : Byte).toNat = 1 from rfl]
  omega

/-- R132, R144: any SP other than 0xFF is a cell's address. -/
theorem State.spAddr_lt (hsp : s.sp ≠ 0xFF) : s.spAddr.toNat < Config.memSize := by
  have h : s.sp.toNat ≠ 255 := fun e => hsp (BitVec.eq_of_toNat_eq e)
  rw [State.spAddr_toNat]
  simp only [Config.memSize]
  omega

theorem State.decSp_spAddr (s : State) : s.decSp.spAddr = (s.sp - 1).setWidth 9 :=
  congrArg (BitVec.setWidth 9) (State.decSp_sp s)

/-- Settles O32: `Completes.push`, with the memory laws at the cell written and beside it. -/
theorem pushStoresBelowTheStackPointer : Obligations.PushStoresBelowTheStackPointer := by
  intro ra s h hsp hm
  refine ⟨_, _, State.reg_decSp h, (Completes.push ra h (State.decSp_spAddr_lt hsp)).exec_eq, ?_,
    State.byteAt_of_stored hm rfl⟩
  rw [State.autoAdvance_one, State.decSp_spAddr]
  rfl

/-- R132: POP writes its register first, so that POP R7 increments the loaded byte. -/
theorem State.incSp_setReg_regs (s : State) (h : ra.toNat < Config.numRegs) (v : Byte) :
    (s.setReg ⟨ra.toNat, h⟩ v).incSp.regs =
      if ra = 7 then s.regs.set 7 (v + 1) else (s.regs.set ra.toNat v h).set 7 (s.sp + 1) := by
  by_cases h7 : ra = 7
  · subst h7
    have hsp : (s.setReg ⟨(7 : Byte).toNat, h⟩ v).sp = v := State.reg_setReg_self s _ v
    rw [if_pos rfl, State.incSp, hsp]
    exact Vector.set_set ..
  · have hsp : (s.setReg ⟨ra.toNat, h⟩ v).sp = s.sp :=
      s.reg_setReg_of_val_ne v fun e => h7 (BitVec.eq_of_toNat_eq e.symm)
    rw [if_neg h7, State.incSp, hsp]
    rfl

/-- Settles O33: `Completes.pop`, with the register file of `State.incSp_setReg_regs`. -/
theorem popLoadsTheTopOfTheStack : Obligations.PopLoadsTheTopOfTheStack := by
  intro ra s h hsp
  rw [(Completes.pop ra h (State.spAddr_lt hsp)).exec_eq, State.autoAdvance_one, State.spAddr_toNat,
    ← State.incSp_setReg_regs]
  rfl

/-- Settles O34: the record update of `Completes.jmp`. -/
theorem jmpSetsThePc : Obligations.JmpSetsThePc := fun ra _ h => (Completes.jmp ra h).exec_eq

/-- Settles O35: the four ways of `Completes` for JEQ and JNE. -/
theorem conditionalJumpsTestTheEqualFlag : Obligations.ConditionalJumpsTestTheEqualFlag :=
  fun ra _ => ⟨fun he h => (Completes.jeqTaken ra he h).exec_eq, fun he => (Completes.jeqPast ra he).exec_eq,
    fun he h => (Completes.jneTaken ra he h).exec_eq, fun he => (Completes.jnePast ra he).exec_eq⟩

/-- Settles O36: `Completes.call`, with the memory laws at the cell written and beside it. -/
theorem callPushesTheReturnAddress : Obligations.CallPushesTheReturnAddress := by
  intro ra s h hsp hm
  refine ⟨_, _, returnByte_toNat s, (Completes.call ra h (State.decSp_spAddr_lt hsp)).exec_eq, ?_,
    State.byteAt_of_stored hm rfl⟩
  rw [← State.reg_decSp h, State.decSp_spAddr]
  rfl

/-- Settles O37: the record update of `Completes.ret`. -/
theorem retPopsThePc : Obligations.RetPopsThePc := by
  intro s hsp
  rw [(Completes.ret (State.spAddr_lt hsp)).exec_eq, State.spAddr_toNat]
  rfl

end Sys2Proof.Machine
end

section
/-! Instruction sequences (spec/95_test_vectors.md section 1, spec/44_control_flow.md,
spec/70_reset_and_hazards.md section 2), and O41 to O45. The first instruction's result is the
statement of its own obligation. -/

namespace Sys2Proof.Machine

variable {s : State} {ra : Byte}

/-- Writing SP and then its first value changes no register. -/
theorem State.regs_set_sp (s : State) (v : Byte) : (s.regs.set 7 v).set 7 s.sp = s.regs :=
  s.regs_set_set_reg Config.spIndex v

/-- And neither does a write of another register's own value between the two. -/
theorem State.regs_set_sp_set_reg (s : State) (h : ra.toNat < Config.numRegs) (h7 : ra ≠ 7) (v : Byte) :
    ((s.regs.set 7 v).set ra.toNat (s.reg ⟨ra.toNat, h⟩) h).set 7 s.sp = s.regs := by
  have hne : 7 ≠ ra.toNat := fun e => h7 (BitVec.eq_of_toNat_eq e.symm)
  have hself : s.regs.set ra.toNat (s.reg ⟨ra.toNat, h⟩) h = s.regs := Vector.set_getElem_self h
  rw [Vector.set_comm _ _ hne, hself, State.regs_set_sp]

theorem Byte.sub_one_ne_max {b : Byte} (h : b ≠ 0) : b - 1 ≠ 0xFF := by
  intro e
  exact h (by rw [← BitVec.sub_add_cancel b 1, e]; rfl)

/-- Settles O41: POP reads the byte PUSH stored, and its increment undoes PUSH's decrement. -/
theorem pushThenPopRestoresEveryRegister : Obligations.PushThenPopRestoresEveryRegister := by
  intro ra s h h7 hsp hm
  obtain ⟨v, t, hv, ht, hst, htop, hrest⟩ := pushStoresBelowTheStackPointer ra s h hsp hm
  rw [if_neg h7] at hv
  have htsp : t.sp = s.sp - 1 := by
    rw [hst]
    exact State.sp_setSp s _
  have hne : t.sp ≠ 0xFF := htsp ▸ Byte.sub_one_ne_max hsp
  refine ⟨t, _, ht, popLoadsTheTopOfTheStack ra t h hne, ?_, ?_, ?_, ?_, hrest⟩
  · rw [if_neg h7, htsp, htop, BitVec.sub_add_cancel, hst, hv]
    exact s.regs_set_sp_set_reg h h7 _
  · rw [hst]
    exact BitVec.add_assoc s.pc 2 2
  · rw [hst]
  · rw [hst]

/-- Settles O42: RET pops the byte CALL stored, which is exact where the CALL is in memory. -/
theorem callThenReturnComesBack : Obligations.CallThenReturnComesBack := by
  intro ra s h hsp hm hpc
  obtain ⟨v, t, hv, ht, hst, htop, -⟩ := callPushesTheReturnAddress ra s h hsp hm
  have htsp : t.sp = s.sp - 1 := by
    rw [hst]
    exact State.sp_setSp s _
  have hne : t.sp ≠ 0xFF := htsp ▸ Byte.sub_one_ne_max hsp
  refine ⟨t, _, ht, retPopsThePc t hne, ?_, ?_, ?_, ?_⟩
  · rw [htsp, htop, Addr.toNat_setWidth, hv]
    simp only [Config.memSize] at hpc
    omega
  · rw [htsp, BitVec.sub_add_cancel, hst]
    exact s.regs_set_sp _
  · rw [hst]
  · rw [hst]

/-- Settles O43: CMP leaves E as the equality of the two values, and JEQ tests it. -/
theorem compareThenJumpIfEqual : Obligations.CompareThenJumpIfEqual := by
  intro ra rb rc s ha hb hc
  obtain ⟨f, he, -, -, ht⟩ := cmpSetsTheFlagsUnsigned ra rb s ha hb
  rw [BitVec.toNat_inj] at he
  obtain ⟨htaken, hpast, -, -⟩ := conditionalJumpsTestTheEqualFlag rc { s with fl := f, pc := s.pc + 3 }
  by_cases heq : s.reg ⟨ra.toNat, ha⟩ = s.reg ⟨rb.toNat, hb⟩
  · exact ⟨_, _, ht, htaken (he.2 heq) hc, by rw [if_pos heq]; rfl, rfl, rfl⟩
  · have hf : f.e = false := Bool.eq_false_iff.2 fun e => heq (he.1 e)
    exact ⟨_, _, ht, hpast hf, by rw [if_neg heq]; exact BitVec.add_assoc s.pc 3 2, rfl, rfl⟩

/-- Settles O44: the jump's target is the next pc, where the opcode fetch faults. -/
theorem jumpOutOfMemoryFaultsAtTheNextFetch : Obligations.JumpOutOfMemoryFaultsAtTheNextFetch := by
  intro ra s h ha hi hout
  have hpc : (((s.afterFetch (.jmp ra)).reg ⟨ra.toNat, h⟩).setWidth 9 : Addr).toNat =
      (s.reg ⟨ra.toNat, h⟩).toNat := Addr.toNat_setWidth _
  exact ⟨_, _, hi.step_of_completes ha (.jmp ra h), ha.1, hpc,
    step_of_pc_outside (by exact ha) (hout.trans hpc.ge), rfl⟩

/-- Settles O45: PUSH on the state its fetch leaves, then the step of an unrecognised opcode. -/
theorem pushedByteIsSeenByTheNextFetch : Obligations.PushedByteIsSeenByTheNextFetch := by
  intro ra s h ha hi h7 hsp hm
  obtain ⟨v, t, hv, ht, hst, htop, -⟩ :=
    pushStoresBelowTheStackPointer ra (s.afterFetch (.push ra)) h hsp hm
  rw [if_neg h7] at hv
  have hrun : t.run = .running := by
    rw [hst]
    exact ha.1
  have hheld : t.resetHeld = false := by
    rw [hst]
    exact ha.2
  have hstep : step s = .next t := by
    rw [hi.step_eq ha, ht, commit_next_of_not_faulted (by simp [hrun])]
  have hpc : t.pc = s.pc + 2 := by rw [hst]; rfl
  have hreports : t.reports = s.reports := by rw [hst]; rfl
  have hread : t.byteAt (s.sp - 1).toNat = s.reg ⟨ra.toNat, h⟩ := htop.trans hv
  refine ⟨t, hstep, hrun, ?_, hread, fun hsite hop => ?_⟩
  · rw [hpc]
    exact State.pc_add_two_toNat hi.opcode.1
  · rw [hsite] at hread
    have hin : t.pc.toNat < Config.memSize := by
      rw [← hsite, ← State.decSp_spAddr_toNat]
      exact State.decSp_spAddr_lt hsp
    refine ⟨_, step_of_unknown ⟨hrun, hheld⟩ hin (hread ▸ hop), ?_⟩
    rw [State.afterUnknown, skipUnknown, hread, ← hreports]
    rfl

end Sys2Proof.Machine
end

section
/-! Reset, the host's moves and the status outputs (spec/70_reset_and_hazards.md section 1,
spec/20_memory.md section 7, spec/10_state.md sections 4 and 6), and O49 to O55. -/

namespace Sys2Proof.Machine

variable {s t : State} {image : List Byte}

/-- Settles O49: the reset state evaluated, its registers by `State.reg_reset`. -/
theorem resetTable : Obligations.ResetTable :=
  ⟨State.reg_reset, rfl, rfl, rfl, rfl, rfl, rfl, rfl, Memory.read_nil, rfl, rfl, rfl⟩

/-- Settles O50: `hostReset` is the reset state with the memory kept and reset held. -/
theorem hostResetKeepsMemory : Obligations.HostResetKeepsMemory :=
  fun _ => ⟨State.reg_reset, rfl, rfl, rfl, rfl, rfl, rfl, rfl, rfl, fun _ => rfl, rfl, rfl, rfl⟩

theorem step_of_resetHeld (h : s.resetHeld = true) : step s = .next s :=
  step_of_not_active fun ha => ha.not_resetHeld h

/-- Settles O51: with reset held the state is not active. -/
theorem noStepWhileResetIsHeld : Obligations.NoStepWhileResetIsHeld := fun _ => step_of_resetHeld

/-- Settles O52: reset is idempotent, and the CORE makes no step while it is held. -/
theorem resetAbandonsTheStepInProgress : Obligations.ResetAbandonsTheStepInProgress :=
  fun s => ⟨s.hostReset, rfl, fun _ => rfl, rfl, rfl, rfl, congrArg some (step_of_resetHeld rfl)⟩

theorem State.terminal_iff : s.Terminal ↔ s.run ≠ .running := by
  unfold State.Terminal
  cases s.run <;> simp

/-- R58: the host may load exactly in reset or a terminal run-state, and an image that fits. -/
theorem State.hostLoad_eq_some_iff :
    s.hostLoad image = some t ↔ ((s.resetHeld = true ∨ s.Terminal) ∧ image.length ≤ Config.memSize) ∧
      t = s.setMem (s.mem.load 0 image) := by
  rw [State.terminal_iff]
  constructor
  · intro h
    obtain ⟨hc, hl, e⟩ := State.hostLoad_eq_some h
    exact ⟨⟨hc, hl⟩, e⟩
  · rintro ⟨⟨hc, hl⟩, rfl⟩
    exact if_pos (by simpa using ⟨hc, hl⟩)

/-- A loaded cell holds the image's byte. -/
theorem Memory.read_load_image {m : Memory} (hm : m.wf = true) (hl : image.length ≤ Config.memSize)
    {k : Nat} (h : k < image.length) : (m.load 0 image).read k = image[k] := by
  rw [Memory.read_load hm 0 image (h.trans_le hl), dif_pos ⟨Nat.zero_le k, h⟩]
  rfl

/-- Every address past the image reads as before, also where it is no cell's. -/
theorem Memory.read_load_past {m : Memory} (hm : m.wf = true) {a : Nat} (h : image.length ≤ a) :
    (m.load 0 image).read a = m.read a := by
  rcases Nat.lt_or_ge a Config.memSize with ha | ha
  · rw [Memory.read_load hm 0 image ha, dif_neg (by omega)]
  · rw [Memory.read_outside (Memory.wf_load hm 0 image) ha, Memory.read_outside hm ha]

/-- Settles O54: the permission of `State.hostLoad_eq_some_iff`, and the two reads of a loaded memory. -/
theorem hostLoadPlacesTheImage : Obligations.HostLoadPlacesTheImage := by
  intro s image hm
  refine ⟨?_, fun t ht => ?_⟩
  · rw [Option.isSome_iff_exists]
    exact ⟨fun ⟨_, h⟩ => (State.hostLoad_eq_some_iff.1 h).1,
      fun h => ⟨_, State.hostLoad_eq_some_iff.2 ⟨h, rfl⟩⟩⟩
  · obtain ⟨⟨-, hl⟩, rfl⟩ := State.hostLoad_eq_some_iff.1 ht
    exact ⟨fun k h => Memory.read_load_image hm hl h, fun a h => Memory.read_load_past hm h, rfl⟩

/-- Settles O53: reset is held when the image is loaded, and the first fetch reads its first byte. -/
theorem firstStepAfterResetFetchesAtZero : Obligations.FirstStepAfterResetFetchesAtZero := by
  intro s op image hm hl
  have hfit : (op :: image).length ≤ Config.memSize := hl
  have hload := State.hostLoad_eq_some_iff.2 ⟨⟨.inl s.hostReset_resetHeld, hfit⟩, rfl⟩
  refine ⟨_, _, rfl, congrArg (Option.map Host.Outcome.next) hload, _, rfl, ⟨rfl, rfl⟩, rfl, ?_, ?_⟩
  · exact Memory.read_load_image hm hfit (Nat.succ_pos _)
  · intro w hw hf
    exact (step_ir ⟨rfl, rfl⟩ hw hf).trans (Memory.read_load_image hm hfit (Nat.succ_pos _))

/-- Settles O55: the codes evaluated; `takeFault` and `setRun` write what is read. -/
theorem statusCodes : Obligations.StatusCodes :=
  ⟨fun r => by cases r <;> decide, fun _ _ => rfl, fun _ _ => rfl, fun _ _ => rfl, fun _ => rfl⟩

end Sys2Proof.Machine
end
